-- ==== Sys2Proof/Word.lean ====
section
/-! DEFINITION. The value types of `word_codec`: bytes, buffers, the word length and the bus word
(00_scope.md R3, R6; 10_state.md R7 to R9). -/

namespace Sys2Proof

/-- A byte, 8 bits with no arithmetic interpretation (10_state.md R7). -/
abbrev Byte := BitVec 8

/-- A buffer: a finite sequence of bytes of any length, index 0 first (10_state.md R9). -/
abbrev Buffer := List Byte

/-- A TXN32 transaction word (30_encoding.md R31). -/
abbrev Txn32 := BitVec 32

/-- The two legal values of `WORD_LEN`, in bytes (00_scope.md R3). -/
inductive WordLen
  | one
  | two
  deriving DecidableEq, Repr

/-- The number `W` of bytes in one word (00_scope.md R3). -/
def WordLen.bytes : WordLen → Nat
  | .one => 1
  | .two => 2

/-- One word of the bus: 8 bits on a 1-byte instance, 16 bits on a 2-byte instance, unsigned and
opaque (00_scope.md R6; 10_state.md R8). -/
inductive BusWord
  | w8 (b : BitVec 8)
  | w16 (w : BitVec 16)
  deriving DecidableEq, Repr

/-- The word length a bus word belongs to. -/
def BusWord.len : BusWord → WordLen
  | .w8 _ => .one
  | .w16 _ => .two

/-- A bus word right-aligned in 16 bits, `zext_16(word)` (30_encoding.md R35, R36). -/
def BusWord.rightAligned : BusWord → BitVec 16
  | .w8 b => b.zeroExtend 16
  | .w16 w => w

/-- A bus word read as an unsigned number (10_state.md R8). -/
def BusWord.toNat : BusWord → Nat
  | .w8 b => b.toNat
  | .w16 w => w.toNat

end Sys2Proof
end

