-- ==== Sys2Proof/Config.lean ====
section
/-! DEFINITION. What is fixed outside the block's rules: the word length of the instance that
`State.reset` stands for, and the free values the spec leaves open. -/

namespace Sys2Proof.Config

/-- The word length of the instance `State.reset` is. DESIGN CHOICE (log entry 1, unsafe): the
spec makes `WORD_LEN` a parameter with no default (00_scope.md R3); no statement rests on it. -/
def resetWordLen : WordLen := .two

/-- The source byte at an index a TXN32 states (`LEN > 2`) and does not carry: any value, never
read (30_encoding.md R34; 92_eei_decisions.md D25; 93_implementation_defined.md U6). A free
value, log entry 9. -/
opaque uncarriedByte : Txn32 → Nat → Byte

/-- The byte a DECODE's destination holds at an index before the DECODE writes it: whatever the
consumer had (93_implementation_defined.md U10). A free value, log entry 10. -/
opaque destinationByte : Nat → Byte

end Sys2Proof.Config
end

