-- ==== Sys2Proof/Syntax.lean ====
section
/-! DEFINITION. The syntax: the two operations of the block in their abstract operand form
(30_encoding.md R29, R30) and the forms of the spec's assembler (30_encoding.md R41). -/

namespace Sys2Proof

/-- One transaction, in the abstract form of 30_encoding.md R30. One constructor per row of
spec/opcode_table.json. -/
inductive Instr
  /-- ENCODE(src): `src` is a buffer of any length. -/
  | encode (src : Buffer)
  /-- DECODE(w, n): the word operand `w`, right-aligned in 16 bits (30_encoding.md R35), and the
  length `n` of the destination buffer the consumer supplies. -/
  | decode (data : BitVec 16) (n : Nat)
  deriving DecidableEq, Repr

/-- The assembler's forms (30_encoding.md R41; log entry 16): the table of forms, as data. -/
inductive AsmLine
  /-- `encode` followed by the listed bytes in braces. -/
  | encode (listed : Buffer)
  /-- `decode w, n`. -/
  | decode (w : BitVec 16) (n : Nat)
  /-- `encz`, the zero word. -/
  | encz
  /-- `.word` followed by a raw TXN32. -/
  | word (t : Txn32)
  deriving DecidableEq, Repr

end Sys2Proof
end

