-- ==== Sys2Proof/WellFormed.lean ====
section
/-! DEFINITION. Which terms of the syntax stand for a transaction of an instance, and which a
TXN32 word or an assembler line can state. -/

namespace Sys2Proof

/-- Is a right-aligned 16-bit operand a word of `8*W` bits (00_scope.md R6; 30_encoding.md R35)? -/
def fitsWord : WordLen → BitVec 16 → Bool
  | .one, data => data.toNat < 256
  | .two, _ => true

/-- Is the instruction an abstract transaction of an instance with word length `W`
(30_encoding.md R30)? An ENCODE takes a buffer of any length; the operand of a DECODE is a word of
`8*W` bits, and its destination length is any natural number. -/
def Instr.wellFormed (W : WordLen) : Instr → Bool
  | .encode _ => true
  | .decode data _ => fitsWord W data

/-- The buffer length the transaction presents, the `n` of 30_encoding.md R30. -/
def Instr.length : Instr → Nat
  | .encode src => src.length
  | .decode _ n => n

/-- Can a TXN32 state the transaction? Its length field holds 0..255 (30_encoding.md R33). -/
def Instr.fitsTxn32 (W : WordLen) (i : Instr) : Bool :=
  i.wellFormed W && i.length < 256

/-- Is the assembler line legal on an instance with word length `W` (30_encoding.md R41)? Lengths
are those a TXN32 states, and the `w` of a `decode` is a word of the instance. -/
def AsmLine.wellFormed (W : WordLen) : AsmLine → Bool
  | .encode listed => listed.length < 256
  | .decode w n => fitsWord W w && n < 256
  | .encz => true
  | .word _ => true

end Sys2Proof
end

