-- ==== Sys2Proof/Decode.lean ====
section
/-! DEFINITION. The transaction word TXN32: its fields, the total transcription of 30_encoding.md
R39, then the encoder and the assembler written from the same tables, and the bit encoding of the
configuration value. -/

namespace Sys2Proof

/-- `OP`, TXN32[31] (30_encoding.md R32). -/
def txnOp (t : Txn32) : BitVec 1 := t.extractLsb' 31 1
/-- `RSV`, TXN32[30:24] (30_encoding.md R37). -/
def txnRsv (t : Txn32) : BitVec 7 := t.extractLsb' 24 7
/-- `LEN`, TXN32[23:16] (30_encoding.md R33). -/
def txnLen (t : Txn32) : BitVec 8 := t.extractLsb' 16 8
/-- `DATA`, TXN32[15:0] (30_encoding.md R31). -/
def txnData (t : Txn32) : BitVec 16 := t.extractLsb' 0 16
/-- Lane 0, TXN32[15:8] (30_encoding.md R34). -/
def txnB0 (t : Txn32) : Byte := t.extractLsb' 8 8
/-- Lane 1, TXN32[7:0] (30_encoding.md R34). -/
def txnB1 (t : Txn32) : Byte := t.extractLsb' 0 8

/-- Why a presented transaction spells no transaction of the instance (30_encoding.md R37, R38). -/
inductive Reject
  /-- `REFUSED_RESERVED`: a bit of `RSV` is set. -/
  | reserved
  /-- `REFUSED_LANE`: a lane that carries nothing is nonzero. -/
  | lane
  deriving DecidableEq, Repr

/-- Does an ENCODE's TXN32 hold a nonzero lane that carries no byte (30_encoding.md R38)? -/
def encodeLaneViolation (t : Txn32) : Bool :=
  (txnLen t = 0 && (txnB0 t ≠ 0 || txnB1 t ≠ 0)) || (txnLen t = 1 && txnB1 t ≠ 0)

/-- Does a DECODE's TXN32 hold a nonzero lane that carries nothing (30_encoding.md R38)? -/
def decodeLaneViolation (W : WordLen) (t : Txn32) : Bool :=
  W = .one && txnB0 t ≠ 0

/-- The source buffer an ENCODE's TXN32 stands for (30_encoding.md R34, R39): `LEN` bytes, the
first two from the lanes and the rest not carried. -/
def txnSource (t : Txn32) : Buffer :=
  [txnB0 t, txnB1 t].take (txnLen t).toNat
    ++ (List.range ((txnLen t).toNat - 2)).map (fun k => Config.uncarriedByte t (k + 2))

/-- Transcription of a TXN32 on an instance with word length `W`, total (30_encoding.md R39). -/
def transcribe (W : WordLen) (t : Txn32) : Except Reject Instr :=
  if txnRsv t ≠ 0 then .error .reserved
  else if txnOp t = 0 then
    if encodeLaneViolation t then .error .lane else .ok (.encode (txnSource t))
  else
    if decodeLaneViolation W t then .error .lane else .ok (.decode (txnData t) (txnLen t).toNat)

/-- The TXN32 with the given fields and `RSV = 0` (30_encoding.md R31). -/
def packTxn32 (op : BitVec 1) (len : BitVec 8) (data : BitVec 16) : Txn32 :=
  op ++ (0#7 ++ (len ++ data))

/-- The byte lane `i` of an ENCODE: `src[i]`, or zero where the lane carries no byte
(30_encoding.md R34, R38). -/
def sourceLane (src : Buffer) (i : Nat) : Byte := src[i]?.getD 0

/-- The TXN32 of an instruction a TXN32 can state (30_encoding.md R31 to R35;
40_codec_ops.md R42, R43, "Encoding"). -/
def encodeTxn32 : Instr → Txn32
  | .encode src => packTxn32 0 (BitVec.ofNat 8 src.length) (sourceLane src 0 ++ sourceLane src 1)
  | .decode data n => packTxn32 1 (BitVec.ofNat 8 n) data

/-- The instruction the pseudo-instruction `encz` expands to (30_encoding.md R41). -/
def enczInstr (W : WordLen) : Instr := .encode (List.replicate W.bytes 0)

/-- The TXN32 an assembler line stands for (30_encoding.md R41); none for a line that is not legal
on the instance. -/
def assemble (W : WordLen) (l : AsmLine) : Option Txn32 :=
  if l.wellFormed W then
    match l with
    | .encode listed => some (encodeTxn32 (.encode listed))
    | .decode w n => some (encodeTxn32 (.decode w n))
    | .encz => some (encodeTxn32 (enczInstr W))
    | .word t => some t
  else none

/-- The 2-bit encoding of `CFG.WORD_LEN` (10_state.md R12). -/
def WordLen.toField : WordLen → BitVec 2
  | .one => 0b01#2
  | .two => 0b10#2

/-- The word length a 2-bit `CFG.WORD_LEN` holds; `0b00` and `0b11` are not legal
(10_state.md R12). -/
def wordLenOfField (f : BitVec 2) : Option WordLen :=
  if f = 0b01#2 then some .one else if f = 0b10#2 then some .two else none

/-- The word length a requested `WORD_LEN` in bytes names, if it is legal (00_scope.md R3, R5). -/
def wordLenOfBytes (w : Nat) : Option WordLen :=
  if w = 1 then some .one else if w = 2 then some .two else none

/-- The TXN32 whose low `nbits` bits are those of `w`, every bit above them 0. A TXN32 is one
32-bit value handed over with the transaction, never stored, so no byte order enters
(20_memory.md R17; log entry 14). -/
def tableWord (nbits w : Nat) : Txn32 := BitVec.ofNat 32 (w % 2 ^ nbits)

/-- The instruction the decoder reads from a word of spec/opcode_table.json, on the instance that
`State.reset` is (log entry 14). -/
def decodeTableWord (nbits w : Nat) : Option Instr :=
  match transcribe Config.resetWordLen (tableWord nbits w) with
  | .ok i => some i
  | .error _ => none

end Sys2Proof
end

