-- ==== Sys2Proof/Machine/State.lean ====
section
/-! DEFINITION. The state of the machine as plain data, what the consumer can present to it, why a
step can stop, and the state after reset. -/

namespace Sys2Proof.Machine

/-- A transaction as the consumer presents it: packed in one TXN32, or directly as its operands,
the abstract form (30_encoding.md R30, R31). -/
inductive Presented
  | txn32 (t : Txn32)
  | operands (i : Instr)
  deriving DecidableEq, Repr

/-- How an issue stands to the other issues (20_memory.md R27; log entry 8). -/
inductive Arrival
  /-- After the previous transaction completed, from the one context. -/
  | serial
  /-- Before the previous transaction completed. -/
  | beforeCompletion
  /-- From a second context. -/
  | secondContext
  deriving DecidableEq, Repr

/-- What the outside can do to a built instance: issue a transaction, or reset it
(30_encoding.md R29; 70_reset_and_hazards.md R63). -/
inductive Event
  | issue (arrival : Arrival) (txn : Presented)
  | reset
  deriving DecidableEq, Repr

/-- The output of a successful transaction: the word of an ENCODE, or the written destination
bytes of a DECODE (30_encoding.md R30). -/
inductive Result
  | word (w : BusWord)
  | buffer (dst : Buffer)
  deriving DecidableEq, Repr

/-- `FAULT_INFO` (10_state.md R14). -/
structure FaultInfo where
  /-- 4 bits: 0 none, 1 `PRECOND_LEN`. -/
  cause : BitVec 4
  /-- 1 bit: 0 ENCODE, 1 DECODE. -/
  op : BitVec 1
  /-- The buffer length the faulting transaction presented. -/
  len : Nat
  deriving DecidableEq, Repr

/-- The value of `FAULT_INFO` after reset and while `FAULT = 0` (10_state.md R14, R16). -/
def FaultInfo.clear : FaultInfo := { cause := 0, op := 0, len := 0 }

/-- Why the machine stops with no next state. -/
inductive Fault
  /-- Raised by `step` and by both meanings when a transaction is issued while `FAULT = 1`: it has
  no step, it is stuck (60_exceptions.md R54; log entry 5). Safe: nothing is claimed of a run that gets here. -/
  | halted
  deriving DecidableEq, Repr

/-- Why the model gives a configuration or a transaction no meaning (60_exceptions.md R56). -/
inductive Refusal
  /-- Raised by an arm of `exec` whose instruction has no meaning yet; no arm raises it. Safe. -/
  | notModelled (mnemonic : String)
  /-- `REFUSED_CONFIG`, raised by `build`, `step` and both meanings: `WORD_LEN` is not 1 or 2
  (00_scope.md R5). Safe. -/
  | config
  /-- `REFUSED_OVERLAP`, raised by `step`: an issue before the previous one completed, or from a
  second context (20_memory.md R27). Safe. -/
  | overlap
  /-- `REFUSED_RESERVED`, raised by `step`: `TXN32[30:24]` is not zero (30_encoding.md R37). Safe. -/
  | reserved
  /-- `REFUSED_LANE`, raised by `step`: a lane that carries nothing is nonzero
  (30_encoding.md R38). Safe. -/
  | lane
  deriving DecidableEq, Repr

/-- The machine. The first four fields are the spec's; `pending` and `delivered` are the two sides
of the interface to the consumer and belong to it (log entries 2 and 4). -/
structure State where
  /-- `CFG.WORD_LEN`, 2 bits, set at instantiation (10_state.md R12). -/
  wordLen : BitVec 2
  /-- `FAULT`, the 1-bit latch (10_state.md R13). -/
  fault : Bool
  /-- `FAULT_INFO` (10_state.md R14). -/
  faultInfo : FaultInfo
  /-- The refused mark, with its reason, kept for the whole run (60_exceptions.md R56). -/
  refusedMark : Option Refusal
  /-- What the consumer has issued and the block has not yet taken, the next one first. -/
  pending : List Event
  /-- What the block has delivered to the consumer, the oldest first. -/
  delivered : List Result
  deriving DecidableEq, Repr

/-- What the next step finds to do, after the checks that come before execution. -/
inductive Fetched
  /-- Execute the transaction in the state it was taken from. -/
  | transact (i : Instr) (s : State)
  /-- No transaction: nothing was issued, or a reset was. -/
  | quiet (s : State)
  /-- The machine is stuck. -/
  | stop (f : Fault)
  /-- The model gives no meaning. -/
  | refuse (r : Refusal)
  deriving DecidableEq, Repr

/-- A new instance with word length `W`, right after reset (10_state.md R16;
70_reset_and_hazards.md R63: building an instance counts as a reset). -/
def State.instantiate (W : WordLen) : State :=
  { wordLen := W.toField
    fault := false
    faultInfo := FaultInfo.clear
    refusedMark := none
    pending := []
    delivered := [] }

/-- The machine right after reset, on the instance the model picks (log entry 1). -/
def State.reset : State := State.instantiate Config.resetWordLen

end Sys2Proof.Machine
end

