-- ==== Sys2Proof/Machine/Flags.lean ====
section
/-! DEFINITION. The block has no condition codes (10_state.md R11; 40_codec_ops.md R42, R43: "There
are no flags"). Its control and status are the configuration value and the fault latch, read here. -/

namespace Sys2Proof.Machine

/-- The word length in `CFG`, none where `CFG` holds an illegal value (10_state.md R12). -/
def wordLen? (s : State) : Option WordLen := wordLenOfField s.wordLen

/-- `FAULT = 1`: the block is halted (10_state.md R13). -/
def halted (s : State) : Bool := s.fault

/-- The cause code of `PRECOND_LEN` (60_exceptions.md R49). -/
def causePrecondLen : BitVec 4 := 1

/-- `FAULT_INFO.OP` of an ENCODE (10_state.md R14). -/
def opEncode : BitVec 1 := 0

/-- `FAULT_INFO.OP` of a DECODE (10_state.md R14). -/
def opDecode : BitVec 1 := 1

/-- The refusal a rejected presentation ends in (60_exceptions.md R56). -/
def refusalOf : Reject → Refusal
  | .reserved => .reserved
  | .lane => .lane

end Sys2Proof.Machine
end

