-- ==== Sys2Proof/Machine/Operands.lean ====
section
/-! DEFINITION. Operand access: reading an ENCODE's source, writing a DECODE's destination, the
presented forms of a transaction and the packing of a result. -/

namespace Sys2Proof.Machine

/-- `MemRead(i, 1)`: the byte at index `i` of the source buffer, an index the buffer has
(00_scope.md section 4; 20_memory.md R18). -/
def memRead (src : Buffer) (i : Nat) (h : i < src.length) : Byte := src[i]

/-- `MemWrite(i, 1, v)`: write byte `v` at index `i` of the destination buffer
(00_scope.md section 4; 20_memory.md R19). -/
def memWrite (dst : Buffer) (i : Nat) (v : Byte) : Buffer := dst.set i v

/-- The high byte of a 2-byte word, `w[15:8]`. -/
def highByte (w : BitVec 16) : Byte := w.extractLsb' 8 8

/-- The low byte of a right-aligned word, `w[7:0]`. -/
def lowByte (w : BitVec 16) : Byte := w.extractLsb' 0 8

/-- The word a source buffer of `W` bytes encodes to, big-endian for `W = 2`
(40_codec_ops.md R42; 20_memory.md R20, R21). -/
def readWord : (W : WordLen) → (src : Buffer) → src.length = W.bytes → BusWord
  | .one, src, h => .w8 (memRead src 0 (h ▸ Nat.one_pos))
  | .two, src, h => .w16 (memRead src 0 (h ▸ Nat.two_pos) ++ memRead src 1 (h ▸ Nat.one_lt_two))

/-- The word operand of a DECODE, `w = TXN32[8*W-1:0]` (30_encoding.md R35). -/
def wordOperand : WordLen → BitVec 16 → BusWord
  | .one, data => .w8 (lowByte data)
  | .two, data => .w16 data

/-- Write a word into a destination buffer, big-endian for a 2-byte word
(40_codec_ops.md R43; 20_memory.md R19). -/
def writeWord : BusWord → Buffer → Buffer
  | .w8 b, dst => memWrite dst 0 b
  | .w16 w, dst => memWrite (memWrite dst 0 (highByte w)) 1 (lowByte w)

/-- The destination of `n` bytes the consumer supplies, before anything is written to it
(93_implementation_defined.md U10; log entry 10). -/
def destination (n : Nat) : Buffer := (List.range n).map Config.destinationByte

/-- The transaction a presentation stands for on an instance with word length `W`, or why it
stands for none (30_encoding.md R30, R39; log entry 11 for the abstract form). -/
def readPresented (W : WordLen) : Presented → Except Reject Instr
  | .txn32 t => transcribe W t
  | .operands i => if i.wellFormed W then .ok i else .error .lane

/-- Lane `i` of a DECODE's result: destination byte `i`, zero where the lane is unused
(30_encoding.md R36). -/
def resultLane (dst : Buffer) (i : Nat) : Byte := dst[i]?.getD 0

/-- `RESULT16`, the packing of a result (30_encoding.md R36). -/
def result16 : Result → BitVec 16
  | .word w => w.rightAligned
  | .buffer dst => resultLane dst 0 ++ resultLane dst 1

end Sys2Proof.Machine
end

