-- ==== Sys2Proof/Machine/Ops.lean ====
section
/-! DEFINITION. The shared operations on the state: delivering a result, taking the exception
`PRECOND_LEN`, reset (its only way back), refusals, building an instance, and finding the next
transaction with the checks of 60_exceptions.md R57 in their order. -/

namespace Sys2Proof.Machine

/-- `result <- v`: deliver the transaction's output to the consumer (00_scope.md section 4;
10_state.md R11). -/
def deliver (s : State) (r : Result) : State := { s with delivered := s.delivered ++ [r] }

/-- Fault entry, `raise PRECOND_LEN({op, len})` (60_exceptions.md R53; log entry 6). Nothing else
is saved and nothing is delivered. -/
def raisePrecondLen (s : State) (op : BitVec 1) (len : Nat) : State :=
  { s with
    fault := true
    faultInfo := { cause := causePrecondLen, op := op, len := len } }

/-- Reset, the only event that clears `FAULT`; there is no other return from a fault
(70_reset_and_hazards.md R63; 60_exceptions.md R58; log entry 13). -/
def resetBlock (s : State) : State := { s with fault := false, faultInfo := FaultInfo.clear }

/-- Set the refused mark: `FAULT` and `FAULT_INFO` stay, and no result is delivered
(60_exceptions.md R56). -/
def markRefused (s : State) (r : Refusal) : State := { s with refusedMark := some r }

/-- The outside drives reset: it comes before everything not yet taken (60_exceptions.md R58;
log entry 13). -/
def assertReset (s : State) : State := { s with pending := .reset :: s.pending }

/-- Build an instance with `WORD_LEN = w`; a value other than 1 or 2 is refused (00_scope.md R5;
70_reset_and_hazards.md R63). -/
def build (w : Nat) : Host.Outcome State Fault Refusal :=
  match wordLenOfBytes w with
  | some W => .next (State.instantiate W)
  | none => .refused .config

/-- Run the body of a meaning on an instance that exists and is not halted: the two checks of
60_exceptions.md R57 that a transaction's own state decides (log entry 15). -/
def whenRunning (s : State) (body : WordLen → Host.Outcome State Fault Refusal) :
    Host.Outcome State Fault Refusal :=
  match wordLen? s with
  | none => .refused .config
  | some W => if halted s then .fault .halted else body W

/-- Take one issue: overlap, the halted latch, then transcription (60_exceptions.md R57, checks 2
to 4). `taken` is the state with the issue taken from the consumer's list. -/
def takeIssue (W : WordLen) (taken : State) (arrival : Arrival) (txn : Presented) : Fetched :=
  if arrival ≠ .serial then .refuse .overlap
  else if halted taken then .stop .halted
  else
    match readPresented W txn with
    | .error e => .refuse (refusalOf e)
    | .ok i => .transact i taken

/-- Find what the next step does. A marked run stays refused (log entry 7); an illegal
configuration has no step (00_scope.md R5); with nothing issued the block stays as it is
(log entry 3; log entry 12 for what an illegal configuration covers). -/
def fetch (s : State) : Fetched :=
  match s.refusedMark with
  | some r => .refuse r
  | none =>
    match wordLen? s with
    | none => .refuse .config
    | some W =>
      match s.pending with
      | [] => .quiet s
      | .reset :: rest => .quiet (resetBlock { s with pending := rest })
      | .issue arrival txn :: rest => takeIssue W { s with pending := rest } arrival txn

end Sys2Proof.Machine
end

