-- ==== Sys2Proof/Machine/Codec.lean ====
section
/-! DEFINITION. The meanings of the two operations, ENCODE and DECODE (40_codec_ops.md R42, R43). -/

namespace Sys2Proof.Machine

/-- ENCODE(src), 40_codec_ops.md R42. The length is examined before any byte is read. -/
def execEncode (src : Buffer) (s : State) : Host.Outcome State Fault Refusal :=
  whenRunning s fun W =>
    if h : src.length = W.bytes then .next (deliver s (.word (readWord W src h)))
    else .next (raisePrecondLen s opEncode src.length)

/-- DECODE(w, n), 40_codec_ops.md R43. The length is examined before any byte is written. -/
def execDecode (data : BitVec 16) (n : Nat) (s : State) : Host.Outcome State Fault Refusal :=
  whenRunning s fun W =>
    if n = W.bytes then
      .next (deliver s (.buffer (writeWord (wordOperand W data) (destination n))))
    else .next (raisePrecondLen s opDecode n)

end Sys2Proof.Machine
end

