-- ==== Sys2Proof/Machine/Dispatch.lean ====
section
/-! DEFINITION. One arm per operation of the block (30_encoding.md R29). -/

namespace Sys2Proof.Machine

def exec (i : Instr) (s : State) : Host.Outcome State Fault Refusal :=
  match i with
  | .encode src => Sys2Proof.Machine.execEncode src s
  | .decode data n => Sys2Proof.Machine.execDecode data n s

end Sys2Proof.Machine
end

