-- ==== Sys2Proof/Machine/Step.lean ====
section
/-! DEFINITION. One step: one indivisible transaction (70_reset_and_hazards.md R69), or what the
checks before it decide. -/

namespace Sys2Proof.Machine

/-- One step of the machine. -/
def step (s : State) : Host.Outcome State Fault Refusal :=
  match fetch s with
  | .transact i s' => exec i s'
  | .quiet s' => .next s'
  | .stop f => .fault f
  | .refuse r => .refused r

/-- The state with a word of spec/opcode_table.json issued as its next transaction: a serial
TXN32 at the head of the consumer's list (log entries 2 and 14). -/
def State.withFetchWord (s : State) (nbits w : Nat) : State :=
  { s with pending := .issue .serial (.txn32 (tableWord nbits w)) :: s.pending }

end Sys2Proof.Machine
end

