-- ==== Sys2Proof/Machine/Run.lean ====
section
/-! DEFINITION. Runs: many steps, stopping at the first stuck or refused one, and steps that keep
the refused mark (60_exceptions.md R56). -/

namespace Sys2Proof.Machine

/-- `k` steps, one transaction at a time in the order issued (20_memory.md R27), stopping where a
step has no next state. The host's run of `core` is this one (`coreRun_eq_run`). -/
def run : Nat → State → Host.Outcome State Fault Refusal
  | 0, s => .next s
  | k + 1, s =>
    match step s with
    | .next s' => run k s'
    | .fault f => .fault f
    | .refused r => .refused r

/-- The state after one step with the step's stop recorded: a refusal sets the refused mark
(60_exceptions.md R56), and a stuck transaction leaves the state as it is (R54; log entry 7). -/
def advance (s : State) : State :=
  match step s with
  | .next s' => s'
  | .fault _ => s
  | .refused r => markRefused s r

/-- `k` such steps. -/
def advanceMany : Nat → State → State
  | 0, s => s
  | k + 1, s => advanceMany k (advance s)

end Sys2Proof.Machine
end

