-- ==== Sys2Proof/Safety.lean ====
section
/-! DEFINITION. The terms claims are stated in: the source's functional contract of the codec,
when an instance is live, what a safe and a final state are, and the invariant of every step. -/

namespace Sys2Proof.Machine

/-- The functional contract of the codec, written from the source's own words and independent of
the machine: `encode(buffer) -> word` and its inverse `decode(word) -> buffer`, big-endian for
2-byte words, defined on the instance's own length alone (00_scope.md R2; 40_codec_ops.md R42,
R43). None is a precondition violation. -/
def contract : WordLen → Instr → Option Result
  | .one, .encode [b0] => some (.word (.w8 b0))
  | .two, .encode [b0, b1] => some (.word (.w16 (b0 ++ b1)))
  | .one, .decode data 1 => some (.buffer [data.extractLsb' 0 8])
  | .two, .decode data 2 => some (.buffer [data.extractLsb' 8 8, data.extractLsb' 0 8])
  | _, _ => none

/-- The operation bit of an instruction (10_state.md R14). -/
def opOf : Instr → BitVec 1
  | .encode _ => 0
  | .decode _ _ => 1

/-- The instance exists with word length `W` and is not halted. -/
abbrev Live (W : WordLen) (s : State) : Prop := s.wordLen = W.toField ∧ s.fault = false

/-- A run that is at a live instance with nothing refused. -/
abbrev Running (W : WordLen) (s : State) : Prop := Live W s ∧ s.refusedMark = none

/-- Does a result have the instance's word length (30_encoding.md R30)? -/
def Result.fits (W : WordLen) : Result → Prop
  | .word w => w.len = W
  | .buffer dst => dst.length = W.bytes

/-- What the fault latch and its record say together (10_state.md R13, R14): clear means all
zero, set means a recorded `PRECOND_LEN` with a length other than `W`. -/
def FaultRecordOk (W : WordLen) (s : State) : Prop :=
  if s.fault then s.faultInfo.cause = 1 ∧ s.faultInfo.len ≠ W.bytes
  else s.faultInfo = { cause := 0, op := 0, len := 0 }

/-- The invariant of the machine: a legal word length, a fault record that agrees with the latch,
and delivered results of the instance's own word length. -/
def Inv (s : State) : Prop :=
  ∃ W : WordLen, s.wordLen = W.toField ∧ FaultRecordOk W s ∧ ∀ r ∈ s.delivered, r.fits W

/-- A state a run may end in: everything issued has been taken, and neither a fault nor a refusal
happened (60_exceptions.md R54: the halted state is never a final state of a run). -/
def Final (s : State) : Prop :=
  s.pending = [] ∧ s.fault = false ∧ s.refusedMark = none

/-- The issue of a presented transaction in its turn. -/
def serially (txn : Presented) : Event := .issue .serial txn

end Sys2Proof.Machine
end

