-- ==== Sys2Proof/Certificates/Slice0/Obligations.lean ====
section
/-! DEFINITION. The statements about the model, one `def Obligations.<Name> : Prop` each. -/

open Sys2Proof Sys2Proof.Machine

/-! ### The transaction word and the assembler -/

/-- TXN32 words written out in the spec's tables stand for the transactions those tables give
(30_encoding.md section 6, first row; 95_test_vectors.md E9, DC2, DC6, T2, T4, T7, and the encode of
the mode word and the decode of the status word of S6, which are the worked examples of
40_codec_ops.md R42 and R43). The host's `decodeTableWord` reads on the instance that `State.reset`
is, the model's choice (log entries 1 and 14); its two words (S6's encode, T9) stand for the same
transaction at either word length, so nothing here rests on that choice. -/
def Obligations.TableWordsTranscribe : Prop :=
  transcribe .two 0x00021234#32 = .ok (.encode [0x12#8, 0x34#8]) ∧
  transcribe .one 0x0001AB00#32 = .ok (.encode [0xAB#8]) ∧
  transcribe .two 0x8002BEEF#32 = .ok (.decode 0xBEEF#16 2) ∧
  transcribe .one 0x8001005A#32 = .ok (.decode 0x005A#16 1) ∧
  transcribe .two 0x7F000000#32 = .error .reserved ∧
  transcribe .two 0x00011234#32 = .error .lane ∧
  transcribe .one 0x80011234#32 = .error .lane ∧
  transcribe .two 0x00020510#32 = .ok (.encode [0x05#8, 0x10#8]) ∧
  transcribe .two 0x80020500#32 = .ok (.decode 0x0500#16 2) ∧
  (∀ W : WordLen, transcribe W 0x00020510#32 = .ok (.encode [0x05#8, 0x10#8]) ∧
    transcribe W 0x80010034#32 = .ok (.decode 0x0034#16 1)) ∧
  decodeTableWord 32 0x00020510 = some (.encode [0x05#8, 0x10#8]) ∧
  decodeTableWord 32 0x80010034 = some (.decode 0x0034#16 1)

/-- Transcription is the function of 30_encoding.md R39, its fields read by arithmetic on the word
as a number: `OP` bit 31 (R32), `LEN` bits 23:16, the lanes bits 15:8 and 7:0, and a DECODE's
operand the low `8*W` bits (R35). -/
def Obligations.TranscriptionIsTotalByFields : Prop :=
  ∀ (W : WordLen) (t : Txn32),
    (t.toNat / 2 ^ 24 % 128 ≠ 0 → transcribe W t = .error .reserved) ∧
    (t.toNat / 2 ^ 24 % 128 = 0 → t.toNat / 2 ^ 31 = 0 →
      if (t.toNat / 2 ^ 16 % 256 = 0 ∧ (t.toNat / 2 ^ 8 % 256 ≠ 0 ∨ t.toNat % 256 ≠ 0)) ∨
          (t.toNat / 2 ^ 16 % 256 = 1 ∧ t.toNat % 256 ≠ 0)
      then transcribe W t = .error .lane
      else ∃ src, transcribe W t = .ok (.encode src) ∧ src.length = t.toNat / 2 ^ 16 % 256 ∧
        (∀ b, src[0]? = some b → b.toNat = t.toNat / 2 ^ 8 % 256) ∧
        (∀ b, src[1]? = some b → b.toNat = t.toNat % 256)) ∧
    (t.toNat / 2 ^ 24 % 128 = 0 → t.toNat / 2 ^ 31 = 1 →
      if W = .one ∧ t.toNat / 2 ^ 8 % 256 ≠ 0 then transcribe W t = .error .lane
      else ∃ w, transcribe W t = .ok (.decode w (t.toNat / 2 ^ 16 % 256)) ∧
        w.toNat = t.toNat % 2 ^ (8 * W.bytes))

/-- Transcribing the TXN32 of an instruction gives the instruction back, for every instruction a
TXN32 can state. Of an ENCODE with more than two bytes, which always faults, the TXN32 carries the
length and the first two bytes (30_encoding.md R34). -/
def Obligations.TranscribeOfEncodeGivesTheInstruction : Prop :=
  ∀ (W : WordLen) (i : Instr), i.fitsTxn32 W = true →
    match i with
    | .decode data n => transcribe W (encodeTxn32 (.decode data n)) = .ok (.decode data n)
    | .encode src =>
      (src.length ≤ 2 → transcribe W (encodeTxn32 (.encode src)) = .ok (.encode src)) ∧
      ∃ src', transcribe W (encodeTxn32 (.encode src)) = .ok (.encode src') ∧
        src'.length = src.length ∧ src'.take 2 = src.take 2

/-- Every TXN32 that stands for a transaction is the encoding of that transaction, and of no other
TXN32's: no bit of an admitted word is dropped. -/
def Obligations.EncodeOfTranscribeGivesTheWord : Prop :=
  ∀ (W : WordLen) (t : Txn32) (i : Instr), transcribe W t = .ok i →
    i.fitsTxn32 W = true ∧ encodeTxn32 i = t

/-- The source bytes a TXN32 does not carry never matter (30_encoding.md R34): two ENCODEs whose
buffers agree in length and in their first two bytes do the same in every state. -/
def Obligations.UncarriedBytesNeverMatter : Prop :=
  ∀ (src src' : Buffer) (s : State), src.length = src'.length → src.take 2 = src'.take 2 →
    exec (.encode src) s = exec (.encode src') s

/-- The assembler's table (30_encoding.md R41): the fields of the TXN32 of each form, the expansion
of `encz`, the raw word, and the fault of a list longer than two bytes. -/
def Obligations.AssemblerForms : Prop :=
  ∀ W : WordLen,
    (∀ listed : Buffer, listed.length < 256 → ∃ t, assemble W (.encode listed) = some t ∧
      txnOp t = 0 ∧ txnRsv t = 0 ∧ (txnLen t).toNat = listed.length ∧
      txnB0 t = listed[0]?.getD 0 ∧ txnB1 t = listed[1]?.getD 0 ∧
      (2 < listed.length → ∃ src, transcribe W t = .ok (.encode src) ∧
        ∀ s, Live W s → exec (.encode src) s = .next { s with
          fault := true, faultInfo := { cause := 1, op := 0, len := listed.length } })) ∧
    (∀ (w : BusWord) (n : Nat), w.len = W → n < 256 →
      ∃ t, assemble W (.decode w.rightAligned n) = some t ∧
        txnOp t = 1 ∧ txnRsv t = 0 ∧ (txnLen t).toNat = n ∧ txnData t = w.rightAligned) ∧
    assemble W .encz =
      assemble W (.encode (match W with | .one => [0x00#8] | .two => [0x00#8, 0x00#8])) ∧
    ∀ t, assemble W (.word t) = some t

/-! ### Instances and reset -/

/-- After reset `FAULT` and every field of `FAULT_INFO` is 0 and `WORD_LEN` is the value the
instance was built with (10_state.md R16). `State.reset` is one such instance; which of the two
lengths it has is the model's choice (log entry 1), and this does not say which. -/
def Obligations.StateAfterResetHasTheListedValues : Prop :=
  (∃ W : WordLen, State.reset = State.instantiate W) ∧
  ∀ W : WordLen, (State.instantiate W).wordLen = W.toField ∧
    (State.instantiate W).fault = false ∧ (State.instantiate W).faultInfo.cause = 0 ∧
    (State.instantiate W).faultInfo.op = 0 ∧ (State.instantiate W).faultInfo.len = 0

/-- Reset clears `FAULT` and `FAULT_INFO` and keeps `WORD_LEN`; building an instance is one; and no
step but one that takes a reset clears `FAULT` (70_reset_and_hazards.md R63). -/
def Obligations.OnlyResetClearsTheLatch : Prop :=
  (∀ s, (resetBlock s).fault = false ∧ (resetBlock s).faultInfo = { cause := 0, op := 0, len := 0 } ∧
    (resetBlock s).wordLen = s.wordLen) ∧
  (∀ W : WordLen, ∃ s, build W.bytes = .next s ∧ s.wordLen = W.toField ∧ s.fault = false ∧
    s.faultInfo = { cause := 0, op := 0, len := 0 }) ∧
  (∀ s rest, s.refusedMark = none → s.pending = .reset :: rest → (∃ W : WordLen, s.wordLen = W.toField) →
    ∃ s', step s = .next s' ∧ s'.fault = false ∧
      s'.faultInfo = { cause := 0, op := 0, len := 0 } ∧ s'.wordLen = s.wordLen) ∧
  ∀ s s', step s = .next s' → s.fault = true → s'.fault = false →
    ∃ rest, s.pending = .reset :: rest

/-- A transaction issued right after a reset is taken at once, and does what it does on any
instance of the same word length that is not halted (70_reset_and_hazards.md R64): the same result
is added, `FAULT` ends the same and, on a fault, `FAULT_INFO` too. The state before the reset may
be halted, and the transaction may be one that was stuck and that `assertReset` put a reset before.
That it is still in the consumer's list and is taken next is the model's choice (log entry 13), and
so is that the reset leaves the results delivered before it (log entries 4 and 13). -/
def Obligations.FirstTransactionAfterReset : Prop :=
  ∀ (W : WordLen) (s : State) (txn : Presented) (rest : List Event) (i : Instr),
    s.wordLen = W.toField → s.refusedMark = none →
    s.pending = .reset :: serially txn :: rest → readPresented W txn = .ok i →
    ∃ s₁, step s = .next s₁ ∧ step s₁ = exec i { s₁ with pending := rest } ∧
      ∀ t t', Live W t → exec i t = .next t' → ∃ s₂, step s₁ = .next s₂ ∧
        s₂.fault = t'.fault ∧ (s₂.fault = true → s₂.faultInfo = t'.faultInfo) ∧
        s₂.delivered.drop s.delivered.length = t'.delivered.drop t.delivered.length

/-- An instance with a `WORD_LEN` outside {1, 2} cannot be built and has no step, whatever is
issued to it (00_scope.md R5). A step of a run already marked refused is left to R56. -/
def Obligations.IllegalWordLengthIsRefused : Prop :=
  (∀ w : Nat, w ≠ 1 → w ≠ 2 → build w = .refused .config) ∧
  (∀ s : State, s.wordLen ≠ 0b01#2 → s.wordLen ≠ 0b10#2 → s.refusedMark = none →
    step s = .refused .config) ∧
  ∀ (s : State) (i : Instr), s.wordLen ≠ 0b01#2 → s.wordLen ≠ 0b10#2 → exec i s = .refused .config

/-- `CFG.WORD_LEN` is a 2-bit field, `0b01` for 1 byte and `0b10` for 2, and no transaction, step or
reset writes it (10_state.md R12; 00_scope.md R4); the other two values are refused. -/
def Obligations.WordLenIsReadOnly : Prop :=
  (∃ s, build 1 = .next s ∧ s.wordLen = 0b01#2) ∧ (∃ s, build 2 = .next s ∧ s.wordLen = 0b10#2) ∧
  (∀ s : State, s.wordLen = 0b00#2 ∨ s.wordLen = 0b11#2 → s.refusedMark = none →
    step s = .refused .config) ∧
  (∀ (i : Instr) (s s' : State), exec i s = .next s' → s'.wordLen = s.wordLen) ∧
  (∀ s s' : State, step s = .next s' → s'.wordLen = s.wordLen) ∧
  ∀ s : State, (resetBlock s).wordLen = s.wordLen

/-! ### The two operations -/

/-- ENCODE (40_codec_ops.md R42): on an instance that is not halted, a buffer of `W` bytes gives its
word and nothing else changes; a buffer of any other length takes `PRECOND_LEN` and nothing else
changes. The third clause is its result word, the last its encoding. -/
def Obligations.EncodeGivesTheWordOrFaults : Prop :=
  (∀ (s : State) (b : Byte), Live .one s →
    exec (.encode [b]) s = .next { s with delivered := s.delivered ++ [.word (.w8 b)] }) ∧
  (∀ (s : State) (b0 b1 : Byte), Live .two s →
    exec (.encode [b0, b1]) s =
      .next { s with delivered := s.delivered ++ [.word (.w16 (b0 ++ b1))] }) ∧
  (∀ w : BusWord, (result16 (.word w)).toNat = w.toNat) ∧
  (∀ (W : WordLen) (s : State) (src : Buffer), Live W s → src.length ≠ W.bytes →
    exec (.encode src) s = .next { s with
      fault := true, faultInfo := { cause := 1, op := 0, len := src.length } }) ∧
  ∀ src : Buffer, src.length < 256 →
    txnOp (encodeTxn32 (.encode src)) = 0 ∧ txnRsv (encodeTxn32 (.encode src)) = 0 ∧
    (txnLen (encodeTxn32 (.encode src))).toNat = src.length ∧
    (∀ b, src[0]? = some b → txnB0 (encodeTxn32 (.encode src)) = b) ∧
    ∀ b, src[1]? = some b → txnB1 (encodeTxn32 (.encode src)) = b

/-- DECODE (40_codec_ops.md R43): on an instance that is not halted, a destination of `W` bytes
receives the bytes of the word, high byte first, and nothing else changes; a destination of any
other length takes `PRECOND_LEN` and nothing else changes. The last clause is its encoding. -/
def Obligations.DecodeGivesTheBytesOrFaults : Prop :=
  (∀ (s : State) (data : BitVec 16), Live .one s →
    exec (.decode data 1) s = .next { s with
      delivered := s.delivered ++ [.buffer [data.extractLsb' 0 8]] }) ∧
  (∀ (s : State) (data : BitVec 16), Live .two s →
    exec (.decode data 2) s = .next { s with
      delivered := s.delivered ++ [.buffer [data.extractLsb' 8 8, data.extractLsb' 0 8]] }) ∧
  (∀ (W : WordLen) (s : State) (data : BitVec 16) (n : Nat), Live W s → n ≠ W.bytes →
    exec (.decode data n) s = .next { s with
      fault := true, faultInfo := { cause := 1, op := 1, len := n } }) ∧
  ∀ (w : BusWord) (n : Nat), n < 256 →
    txnOp (encodeTxn32 (.decode w.rightAligned n)) = 1 ∧
    txnRsv (encodeTxn32 (.decode w.rightAligned n)) = 0 ∧
    (txnLen (encodeTxn32 (.decode w.rightAligned n))).toNat = n ∧
    (encodeTxn32 (.decode w.rightAligned n)).toNat % 2 ^ (8 * w.len.bytes) = w.toNat

/-- The machine refines the source's functional contract (00_scope.md R2): every transaction of a
live instance completes, delivering what the contract gives, or taking the fault where the contract
gives nothing; its frame is everything else. -/
def Obligations.ExecRefinesTheContract : Prop :=
  ∀ (W : WordLen) (i : Instr) (s : State), Live W s →
    exec i s = match contract W i with
      | some r => .next { s with delivered := s.delivered ++ [r] }
      | none => .next { s with
          fault := true, faultInfo := { cause := 1, op := opOf i, len := i.length } }

/-- `RESULT16` of the four kinds of success, and none on a fault (30_encoding.md R36). -/
def Obligations.ResultWordLayout : Prop :=
  (∀ (W : WordLen) (s : State) (src : Buffer), Live W s → src.length = W.bytes →
    ∃ w : BusWord, exec (.encode src) s =
        .next { s with delivered := s.delivered ++ [.word w] } ∧ w.len = W ∧
      (result16 (.word w)).toNat = w.toNat) ∧
  (∀ (W : WordLen) (s : State) (data : BitVec 16), Live W s →
    ∃ dst : Buffer, exec (.decode data W.bytes) s =
        .next { s with delivered := s.delivered ++ [.buffer dst] } ∧
      match W, dst with
      | .one, [d0] => (result16 (.buffer dst)).extractLsb' 8 8 = d0 ∧
          (result16 (.buffer dst)).extractLsb' 0 8 = 0x00#8
      | .two, [d0, d1] => (result16 (.buffer dst)).extractLsb' 8 8 = d0 ∧
          (result16 (.buffer dst)).extractLsb' 0 8 = d1
      | _, _ => False) ∧
  ∀ (W : WordLen) (i : Instr) (s s' : State), Live W s → i.length ≠ W.bytes →
    exec i s = .next s' → s'.delivered.map result16 = s.delivered.map result16

/-- Big-endian (20_memory.md R20): the word a 2-byte ENCODE delivers has byte 0 in bits 15:8 and
byte 1 in bits 7:0, and is `256*b0 + b1` as a number. -/
def Obligations.TwoByteWordsAreBigEndian : Prop :=
  ∀ (s : State) (b0 b1 : Byte), Live .two s →
    ∃ w : BitVec 16, exec (.encode [b0, b1]) s =
        .next { s with delivered := s.delivered ++ [.word (.w16 w)] } ∧
      w.extractLsb' 8 8 = b0 ∧ w.extractLsb' 0 8 = b1 ∧ w.toNat = 256 * b0.toNat + b1.toNat

/-- Across instances (20_memory.md R23): the bytes `b0`, `b1` are the one word `b0 ++ b1` on a 2-byte
instance and, issued in index order, the two words `b0`, then `b1`, on a 1-byte instance. -/
def Obligations.OneByteWordsComeMostSignificantFirst : Prop :=
  ∀ (s t : State) (b0 b1 : Byte), Live .two s → Live .one t →
    exec (.encode [b0, b1]) s =
      .next { s with delivered := s.delivered ++ [.word (.w16 (b0 ++ b1))] } ∧
    ∃ t₁ : State, exec (.encode [b0]) t = .next t₁ ∧
      exec (.encode [b1]) t₁ =
        .next { t with delivered := t.delivered ++ [.word (.w8 b0), .word (.w8 b1)] }

/-- The codec only places bytes into bit positions (40_codec_ops.md R48): bit `j` of byte `k` of an
ENCODE's source is bit `8*(W-1-k)+j` of the word it delivers, and that bit of a DECODE's word is
bit `j` of byte `k` of its destination. -/
def Obligations.CodecOnlyPlacesBits : Prop :=
  ∀ (W : WordLen) (s : State) (src : Buffer) (data : BitVec 16), Live W s → src.length = W.bytes →
    ∃ (w : BusWord) (dst : Buffer),
      exec (.encode src) s = .next { s with delivered := s.delivered ++ [.word w] } ∧
      exec (.decode data W.bytes) s = .next { s with delivered := s.delivered ++ [.buffer dst] } ∧
      ∀ k j, k < W.bytes → j < 8 →
        (src[k]?.map (·.getLsbD j) = some (w.rightAligned.getLsbD (8 * (W.bytes - 1 - k) + j))) ∧
        (dst[k]?.map (·.getLsbD j) = some (data.getLsbD (8 * (W.bytes - 1 - k) + j)))

/-- Decode after encode is the identity on `W`-byte buffers (40_codec_ops.md R44). -/
def Obligations.DecodeAfterEncodeIsIdentity : Prop :=
  ∀ (W : WordLen) (s t : State) (b : Buffer), Live W s → Live W t → b.length = W.bytes →
    ∃ w : BusWord, exec (.encode b) s = .next { s with delivered := s.delivered ++ [.word w] } ∧
      exec (.decode w.rightAligned W.bytes) t =
        .next { t with delivered := t.delivered ++ [.buffer b] }

/-- Encode after decode is the identity on words of `8*W` bits (40_codec_ops.md R45). -/
def Obligations.EncodeAfterDecodeIsIdentity : Prop :=
  ∀ (W : WordLen) (s t : State) (w : BusWord), Live W s → Live W t → w.len = W →
    ∃ dst : Buffer, exec (.decode w.rightAligned W.bytes) s =
        .next { s with delivered := s.delivered ++ [.buffer dst] } ∧
      exec (.encode dst) t = .next { t with delivered := t.delivered ++ [.word w] }

/-- ENCODE on `W`-byte buffers is a bijection onto the words of `8*W` bits with DECODE its inverse,
and neither operation succeeds on another length (40_codec_ops.md R46). -/
def Obligations.EncodeIsABijection : Prop :=
  ∀ (W : WordLen) (s : State), Live W s →
    (∀ b c : Buffer, b.length = W.bytes → c.length = W.bytes →
      exec (.encode b) s = exec (.encode c) s → b = c) ∧
    (∀ w : BusWord, w.len = W → ∃ b : Buffer, b.length = W.bytes ∧
      exec (.encode b) s = .next { s with delivered := s.delivered ++ [.word w] } ∧
      exec (.decode w.rightAligned W.bytes) s =
        .next { s with delivered := s.delivered ++ [.buffer b] }) ∧
    ∀ i : Instr, i.length ≠ W.bytes → ∃ s', exec i s = .next s' ∧ s'.fault = true ∧
      s'.delivered = s.delivered

/-- The zero buffer encodes to the zero word and the zero word decodes to `W` zero bytes
(40_codec_ops.md R47). -/
def Obligations.ZeroBufferIsZeroWord : Prop :=
  ∀ (W : WordLen) (s : State), Live W s →
    (∃ w : BusWord, exec (.encode (List.replicate W.bytes 0)) s =
        .next { s with delivered := s.delivered ++ [.word w] } ∧ w.len = W ∧ w.toNat = 0) ∧
    exec (.decode 0 W.bytes) s =
      .next { s with delivered := s.delivered ++ [.buffer (List.replicate W.bytes 0)] }

/-- A DECODE's writes, on any prior destination (20_memory.md R19): bytes `0 .. W-1` become those of
the word whatever they were, and no other index changes. -/
def Obligations.DecodeWritesOnlyItsWord : Prop :=
  ∀ (W : WordLen) (data : BitVec 16) (dst : Buffer), W.bytes ≤ dst.length →
    (writeWord (wordOperand W data) dst).length = dst.length ∧
    (∀ j, W.bytes ≤ j → (writeWord (wordOperand W data) dst)[j]? = dst[j]?) ∧
    ∀ dst' : Buffer, W.bytes ≤ dst'.length → ∀ j, j < W.bytes →
      (writeWord (wordOperand W data) dst)[j]? = (writeWord (wordOperand W data) dst')[j]? ∧
      (writeWord (wordOperand W data) dst)[j]? =
        some (BitVec.ofNat 8 (data.toNat / 2 ^ (8 * (W.bytes - 1 - j))))

/-! ### The fault -/

/-- `PRECOND_LEN` is raised when the length is not `W`, and only then, and the check uses the length
alone (60_exceptions.md R50, R51). -/
def Obligations.PrecondLenExactlyOnAWrongLength : Prop :=
  ∀ (W : WordLen) (s : State), Live W s →
    (∀ src : Buffer, (∃ s', exec (.encode src) s = .next s' ∧ s'.fault = true) ↔
      src.length ≠ W.bytes) ∧
    (∀ (data : BitVec 16) (n : Nat), (∃ s', exec (.decode data n) s = .next s' ∧ s'.fault = true) ↔
      n ≠ W.bytes) ∧
    (∀ src src' : Buffer, src.length = src'.length → src.length ≠ W.bytes →
      exec (.encode src) s = exec (.encode src') s) ∧
    ∀ (data data' : BitVec 16) (n : Nat), n ≠ W.bytes →
      exec (.decode data n) s = exec (.decode data' n) s

/-- Fault entry (60_exceptions.md R53), as the step of the faulting transaction: `FAULT`, the cause,
the operation and the length presented are written, nothing else is saved, and no result is
delivered. -/
def Obligations.FaultEntryWritesTheRecord : Prop :=
  ∀ (W : WordLen) (s : State) (txn : Presented) (rest : List Event) (i : Instr),
    Running W s → s.pending = serially txn :: rest → readPresented W txn = .ok i →
    i.length ≠ W.bytes →
    ∃ s', step s = .next s' ∧ s'.fault = true ∧
      s'.faultInfo = { cause := 1, op := opOf i, len := i.length } ∧
      s'.wordLen = s.wordLen ∧ s'.delivered = s.delivered ∧ s'.refusedMark = s.refusedMark

/-- A faulting TXN32 records its own `OP` bit and its own 8-bit `LEN` (10_state.md R14,
30_encoding.md R33), read here by arithmetic on the word. -/
def Obligations.FaultRecordIsReadFromTheWord : Prop :=
  ∀ (W : WordLen) (s : State) (t : Txn32) (rest : List Event) (i : Instr),
    Running W s → s.pending = serially (.txn32 t) :: rest → transcribe W t = .ok i →
    t.toNat / 2 ^ 16 % 256 ≠ W.bytes →
    ∃ s', step s = .next s' ∧ s'.fault = true ∧ s'.faultInfo.cause = 1 ∧
      s'.faultInfo.op.toNat = t.toNat / 2 ^ 31 ∧ s'.faultInfo.len = t.toNat / 2 ^ 16 % 256

/-- While `FAULT = 1` a transaction has no step (60_exceptions.md R54): it is stuck in `step` and in
each meaning; however many steps are tried it is not executed, not refused and not faulted again,
`FAULT_INFO` keeps the first fault, and the state is not final; a reset leaves it. -/
def Obligations.HaltedBlockIsStuckUntilReset : Prop :=
  ∀ (W : WordLen) (s : State) (txn : Presented) (rest : List Event),
    s.wordLen = W.toField → s.fault = true → s.refusedMark = none →
    s.pending = serially txn :: rest →
    step s = .fault .halted ∧ (∀ i, exec i s = .fault .halted) ∧
    (∀ k, (advanceMany k s).fault = true ∧ (advanceMany k s).faultInfo = s.faultInfo ∧
      (advanceMany k s).delivered = s.delivered ∧ (advanceMany k s).refusedMark = none ∧
      ¬ Final (advanceMany k s)) ∧
    ∃ s', step (assertReset s) = .next s' ∧ s'.fault = false ∧
      s'.faultInfo = { cause := 0, op := 0, len := 0 }

/-- The discipline of the `FAULT` latch (10_state.md R13): a step changes it only to 1 by a
transaction of the wrong length, or to 0 by a reset; while it is 1 only a reset is taken. -/
def Obligations.FaultLatchIsWrittenOnlyByEntryAndReset : Prop :=
  (∀ s s' : State, step s = .next s' → s.fault = false → s'.fault = true →
    ∃ (W : WordLen) (txn : Presented) (rest : List Event) (i : Instr),
      s.wordLen = W.toField ∧ s.pending = serially txn :: rest ∧
      readPresented W txn = .ok i ∧ i.length ≠ W.bytes) ∧
  (∀ s s' : State, step s = .next s' → s.fault = true →
    (s.pending = [] ∧ s'.fault = true) ∨ ∃ rest, s.pending = .reset :: rest ∧ s'.fault = false) ∧
  ∀ (i : Instr) (s s' : State), exec i s = .next s' → s.fault = false

/-- The discipline of `FAULT_INFO` (10_state.md R14): once set it stays until reset, and a step that
leaves `FAULT = 0` leaves its fields as they were, or all 0. -/
def Obligations.FaultInfoIsWrittenOnce : Prop :=
  (∀ s s' : State, step s = .next s' → s.fault = true →
    (∀ rest, s.pending ≠ .reset :: rest) → s'.faultInfo = s.faultInfo ∧ s'.fault = true) ∧
  (∀ s s' : State, step s = .next s' → s'.fault = false →
    (s.fault = false → s.faultInfo = { cause := 0, op := 0, len := 0 }) →
    s'.faultInfo = { cause := 0, op := 0, len := 0 }) ∧
  ∀ s s' : State, step s = .next s' → s.fault = false → s'.fault = true →
    s'.faultInfo.cause = 1 ∧ ∃ (W : WordLen) (txn : Presented) (rest : List Event) (i : Instr),
      s.wordLen = W.toField ∧ s.pending = serially txn :: rest ∧ readPresented W txn = .ok i ∧
      s'.faultInfo.op = opOf i ∧ s'.faultInfo.len = i.length

/-! ### Refusals and the order of checks -/

/-- A refusal sets a refused mark that is kept for the whole run, writes neither `FAULT` nor
`FAULT_INFO` and produces no result, and its reasons are the four of the table (60_exceptions.md
R56). What else a refusal leaves is `RefusedRunStopsWhereItIs`. -/
def Obligations.RefusalSetsTheMarkForTheRun : Prop :=
  (∀ (s : State) (r : Refusal), step s = .refused r →
    (advance s).refusedMark ≠ none ∧ (advance s).fault = s.fault ∧
    (advance s).faultInfo = s.faultInfo ∧ (advance s).delivered = s.delivered ∧
    ∀ k, (advanceMany (k + 1) s).refusedMark ≠ none) ∧
  (∀ w : Nat, build w = .refused .config ↔ w ≠ 1 ∧ w ≠ 2) ∧
  ∀ (s : State) (r : Refusal), s.refusedMark = none → step s = .refused r →
    (r = .config ∧ ∀ W : WordLen, s.wordLen ≠ W.toField) ∨
    (r = .overlap ∧ ∃ arrival txn rest, s.pending = .issue arrival txn :: rest ∧
      arrival ≠ .serial) ∨
    ∃ (W : WordLen) (txn : Presented) (rest : List Event), s.wordLen = W.toField ∧
      s.pending = serially txn :: rest ∧
      ((r = .reserved ∧ readPresented W txn = .error .reserved) ∨
       (r = .lane ∧ readPresented W txn = .error .lane))

/-- The model's choice of what a run does after a refusal (log entry 7; 60_exceptions.md R56 says
only that the mark is kept and what is not written): the state differs only in the mark, which
carries the reason, so the refused transaction stays in the consumer's list; the state stays so
however many steps follow, and every later step is refused with the same reason. -/
def Obligations.RefusedRunStopsWhereItIs : Prop :=
  ∀ (s : State) (r : Refusal), step s = .refused r →
    ∀ k, advanceMany (k + 1) s = { s with refusedMark := some r } ∧
      step (advanceMany (k + 1) s) = .refused r

/-- The order of the checks on one issue (60_exceptions.md R57): configuration, overlap, the halted
latch, reserved bits, lanes, length, execution. -/
def Obligations.ChecksAreMadeInOrder : Prop :=
  ∀ (s : State) (arrival : Arrival) (t : Txn32) (rest : List Event),
    s.refusedMark = none → s.pending = .issue arrival (.txn32 t) :: rest →
    ((∀ W : WordLen, s.wordLen ≠ W.toField) → step s = .refused .config) ∧
    ∀ W : WordLen, s.wordLen = W.toField →
      if arrival ≠ .serial then step s = .refused .overlap
      else if s.fault = true then step s = .fault .halted
      else if t.toNat / 2 ^ 24 % 128 ≠ 0 then step s = .refused .reserved
      else if encodeLaneViolation t = true ∧ t.toNat / 2 ^ 31 = 0 ∨
          decodeLaneViolation W t = true ∧ t.toNat / 2 ^ 31 = 1 then step s = .refused .lane
      else ∃ i s', transcribe W t = .ok i ∧ step s = .next s' ∧
        if i.length ≠ W.bytes then
          s'.fault = true ∧ s'.faultInfo.cause = 1 ∧ s'.delivered = s.delivered
        else s'.fault = false ∧ ∃ r, contract W i = some r ∧ s'.delivered = s.delivered ++ [r]

/-- A TXN32 with any `RSV` bit set is refused, whatever its other bits (30_encoding.md R37): no
fault is recorded and no operand is examined. -/
def Obligations.ReservedBitsAreRefused : Prop :=
  ∀ (W : WordLen) (s : State) (t : Txn32) (rest : List Event) (k : Nat),
    Running W s → s.pending = serially (.txn32 t) :: rest → 24 ≤ k → k ≤ 30 → t.getLsbD k = true →
    step s = .refused .reserved ∧ (advance s).fault = s.fault ∧
      (advance s).faultInfo = s.faultInfo ∧ (advance s).delivered = s.delivered

/-- The lanes that carry nothing must be zero, and no other lane must (30_encoding.md R38). -/
def Obligations.EmptyLanesMustBeZero : Prop :=
  ∀ (W : WordLen) (s : State) (t : Txn32) (rest : List Event),
    Running W s → s.pending = serially (.txn32 t) :: rest → t.toNat / 2 ^ 24 % 128 = 0 →
    (step s = .refused .lane ↔
      (t.toNat / 2 ^ 31 = 0 ∧ t.toNat / 2 ^ 16 % 256 = 0 ∧ t.toNat % 2 ^ 16 ≠ 0) ∨
      (t.toNat / 2 ^ 31 = 0 ∧ t.toNat / 2 ^ 16 % 256 = 1 ∧ t.toNat % 256 ≠ 0) ∨
      (t.toNat / 2 ^ 31 = 1 ∧ W = .one ∧ t.toNat / 2 ^ 8 % 256 ≠ 0))

/-- An issue that overlaps another, or comes from a second context, is refused even on a halted
block (20_memory.md R27; 60_exceptions.md R57). How an issue says that it overlaps is the model's
choice (log entry 8), and so is that only the refused mark changes, with the reason in it and the
refused issue still in the consumer's list (log entry 7). -/
def Obligations.OverlappingIssueIsRefused : Prop :=
  ∀ (W : WordLen) (s : State) (arrival : Arrival) (txn : Presented) (rest : List Event),
    s.wordLen = W.toField → s.refusedMark = none → s.pending = .issue arrival txn :: rest →
    arrival ≠ .serial →
    step s = .refused .overlap ∧ advance s = { s with refusedMark := some .overlap }

/-! ### Steps, runs and invariants -/

/-- A step on a running instance whose next issue stands for a transaction, packed or abstract, is
the execution of that transaction, with the issue taken from the consumer's list and nothing else
around it. The consumer's list is the model's choice (log entry 2). That a word wider than `8*W` bits is refused in the abstract form is the model's choice
(log entry 11). -/
def Obligations.StepRunsTheIssuedTransaction : Prop :=
  ∀ (W : WordLen) (s : State) (rest : List Event), Running W s →
    (∀ t i, s.pending = serially (.txn32 t) :: rest → transcribe W t = .ok i →
      step s = exec i { s with pending := rest }) ∧
    (∀ i, s.pending = serially (.operands i) :: rest → i.wellFormed W = true →
      step s = exec i { s with pending := rest }) ∧
    ∀ i, s.pending = serially (.operands i) :: rest → i.wellFormed W = false →
      step s = .refused .lane

/-- Transactions take effect one at a time in the order issued (20_memory.md R27): a list of
transactions of the right length, issued in turn, delivers in that order exactly what the contract
gives each, one step a transaction, and leaves everything else of the instance as it was. The two
lists, `pending` and `delivered`, are the model's choice (log entries 2 and 4). -/
def Obligations.SerialRunDeliversInOrder : Prop :=
  ∀ (W : WordLen) (txns : List Presented) (is : List Instr) (rs : List Result) (s : State)
    (rest : List Event),
    Running W s → s.pending = txns.map serially ++ rest →
    txns.map (readPresented W) = is.map .ok → is.map (contract W) = rs.map some →
    run txns.length s =
      .next { s with pending := rest, delivered := s.delivered ++ rs }

/-- Faults are precise (60_exceptions.md R59): every transaction issued before the faulting one has
delivered its result, the faulting one has delivered nothing and has written the record of fault
entry (R53), and none issued after it is taken, however long the run. The halted state is stuck,
never final, and left by reset alone (R54). That the faulting issue has left the consumer's list and
the one behind it has not is how the model says which was taken (log entries 2, 5 and 6). -/
def Obligations.FaultsArePrecise : Prop :=
  ∀ (W : WordLen) (txns : List Presented) (is : List Instr) (rs : List Result) (s t : State)
    (bad next : Presented) (i : Instr) (rest : List Event),
    Running W s → s.pending = txns.map serially ++ serially bad :: serially next :: rest →
    txns.map (readPresented W) = is.map .ok → is.map (contract W) = rs.map some →
    readPresented W bad = .ok i → i.length ≠ W.bytes →
    t = { s with
      pending := serially next :: rest
      delivered := s.delivered ++ rs
      fault := true
      faultInfo := { cause := 1, op := opOf i, len := i.length } } →
    run (txns.length + 1) s = .next t ∧
    (∀ k, run (txns.length + 2 + k) s = .fault .halted) ∧
    (∀ k, (advanceMany k t).fault = true ∧ (advanceMany k t).faultInfo = t.faultInfo ∧
      (advanceMany k t).refusedMark = none ∧ ¬ Final (advanceMany k t)) ∧
    ∃ t', step (assertReset t) = .next t' ∧ t'.fault = false

/-- What a step that answers a next state leaves unchanged: the configuration and the refused mark;
the delivered results are only added to, at most one a step; and the consumer's list loses at most
its head. Of a step that takes a reset, that the rest of the list stays (log entry 13, deduced) and
that the delivered results and the refused mark stay (log entries 4, 7 and 13) is the model's
choice; the spec's reset names only `FAULT`, `FAULT_INFO` and `WORD_LEN`. -/
def Obligations.StepFrame : Prop :=
  ∀ s s' : State, step s = .next s' →
    s'.wordLen = s.wordLen ∧ s'.refusedMark = s.refusedMark ∧
    (s'.delivered = s.delivered ∨ ∃ r, s'.delivered = s.delivered ++ [r]) ∧
    (s'.pending = s.pending ∧ s.pending = [] ∨ ∃ e, s.pending = e :: s'.pending)

/-- The block holds no data between transactions (10_state.md R10): what a transaction delivers and
whether it faults depend on its operands and the word length alone, whatever was done before. -/
def Obligations.OutputDependsOnOperandsAlone : Prop :=
  ∀ (W : WordLen) (i : Instr) (s t : State), Live W s → Live W t →
    ∃ out : List Result, ∃ s' t', exec i s = .next s' ∧ exec i t = .next t' ∧
      s'.delivered = s.delivered ++ out ∧ t'.delivered = t.delivered ++ out ∧
      s'.fault = t'.fault ∧
      (s'.fault = true → s'.faultInfo = t'.faultInfo)

/-- A successful transaction can be repeated or skipped without another seeing a difference
(20_memory.md R26; 70_reset_and_hazards.md R68): it delivers the same result again, and any
transaction after it does what it does without it. -/
def Obligations.RepeatingOrSkippingIsUnseen : Prop :=
  ∀ (W : WordLen) (i j : Instr) (s s₁ : State), Live W s → exec i s = .next s₁ →
    s₁.fault = false →
    ∃ r, s₁ = { s with delivered := s.delivered ++ [r] } ∧
      exec i s₁ = .next { s with delivered := s.delivered ++ [r, r] } ∧
      ∃ sj out, exec j s = .next sj ∧ sj.delivered = s.delivered ++ out ∧
        exec j s₁ = .next { sj with delivered := s.delivered ++ r :: out }

/-- The invariant holds at reset, on an instance of either word length, and of every instance that
can be built. -/
def Obligations.InvariantHoldsAtReset : Prop :=
  Inv State.reset ∧ (∀ W : WordLen, Inv (State.instantiate W)) ∧
    ∀ (w : Nat) (s : State), build w = .next s → Inv s

/-- The invariant is kept by every step from every state that has it: the word length stays legal,
`FAULT_INFO` agrees with `FAULT`, and every result delivered has the instance's word length. -/
def Obligations.EveryStepKeepsTheInvariant : Prop :=
  ∀ s s' : State, Inv s → step s = .next s' → Inv s'
end

