-- ==== Sys2Proof/Laws/State.lean ====
section
/-! SUPPORT. One lemma per field per update of the state, and reading the configuration field. -/

namespace Sys2Proof.Machine

@[simp] theorem deliver_wordLen (s : State) (r : Result) : (deliver s r).wordLen = s.wordLen := rfl
@[simp] theorem deliver_fault (s : State) (r : Result) : (deliver s r).fault = s.fault := rfl
@[simp] theorem deliver_faultInfo (s : State) (r : Result) :
    (deliver s r).faultInfo = s.faultInfo := rfl
@[simp] theorem deliver_refusedMark (s : State) (r : Result) :
    (deliver s r).refusedMark = s.refusedMark := rfl
@[simp] theorem deliver_pending (s : State) (r : Result) : (deliver s r).pending = s.pending := rfl
@[simp] theorem deliver_delivered (s : State) (r : Result) :
    (deliver s r).delivered = s.delivered ++ [r] := rfl

@[simp] theorem raisePrecondLen_wordLen (s : State) (op : BitVec 1) (n : Nat) :
    (raisePrecondLen s op n).wordLen = s.wordLen := rfl
@[simp] theorem raisePrecondLen_fault (s : State) (op : BitVec 1) (n : Nat) :
    (raisePrecondLen s op n).fault = true := rfl
@[simp] theorem raisePrecondLen_faultInfo (s : State) (op : BitVec 1) (n : Nat) :
    (raisePrecondLen s op n).faultInfo = { cause := causePrecondLen, op := op, len := n } := rfl
@[simp] theorem raisePrecondLen_refusedMark (s : State) (op : BitVec 1) (n : Nat) :
    (raisePrecondLen s op n).refusedMark = s.refusedMark := rfl
@[simp] theorem raisePrecondLen_pending (s : State) (op : BitVec 1) (n : Nat) :
    (raisePrecondLen s op n).pending = s.pending := rfl
@[simp] theorem raisePrecondLen_delivered (s : State) (op : BitVec 1) (n : Nat) :
    (raisePrecondLen s op n).delivered = s.delivered := rfl

@[simp] theorem resetBlock_wordLen (s : State) : (resetBlock s).wordLen = s.wordLen := rfl
@[simp] theorem resetBlock_fault (s : State) : (resetBlock s).fault = false := rfl
@[simp] theorem resetBlock_faultInfo (s : State) : (resetBlock s).faultInfo = FaultInfo.clear := rfl
@[simp] theorem resetBlock_refusedMark (s : State) :
    (resetBlock s).refusedMark = s.refusedMark := rfl
@[simp] theorem resetBlock_pending (s : State) : (resetBlock s).pending = s.pending := rfl
@[simp] theorem resetBlock_delivered (s : State) : (resetBlock s).delivered = s.delivered := rfl

@[simp] theorem markRefused_wordLen (s : State) (r : Refusal) :
    (markRefused s r).wordLen = s.wordLen := rfl
@[simp] theorem markRefused_fault (s : State) (r : Refusal) :
    (markRefused s r).fault = s.fault := rfl
@[simp] theorem markRefused_faultInfo (s : State) (r : Refusal) :
    (markRefused s r).faultInfo = s.faultInfo := rfl
@[simp] theorem markRefused_refusedMark (s : State) (r : Refusal) :
    (markRefused s r).refusedMark = some r := rfl
@[simp] theorem markRefused_pending (s : State) (r : Refusal) :
    (markRefused s r).pending = s.pending := rfl
@[simp] theorem markRefused_delivered (s : State) (r : Refusal) :
    (markRefused s r).delivered = s.delivered := rfl

@[simp] theorem assertReset_wordLen (s : State) : (assertReset s).wordLen = s.wordLen := rfl
@[simp] theorem assertReset_fault (s : State) : (assertReset s).fault = s.fault := rfl
@[simp] theorem assertReset_faultInfo (s : State) : (assertReset s).faultInfo = s.faultInfo := rfl
@[simp] theorem assertReset_refusedMark (s : State) :
    (assertReset s).refusedMark = s.refusedMark := rfl
@[simp] theorem assertReset_pending (s : State) :
    (assertReset s).pending = .reset :: s.pending := rfl
@[simp] theorem assertReset_delivered (s : State) : (assertReset s).delivered = s.delivered := rfl

/-- The configuration field reads back as the word length it was written from. -/
@[simp] theorem wordLenOfField_toField (W : WordLen) : wordLenOfField W.toField = some W := by
  cases W <;> rfl

/-- A configuration field that names a word length is that word length's encoding. -/
theorem wordLenOfField_eq_some {f : BitVec 2} {W : WordLen} :
    wordLenOfField f = some W ↔ f = W.toField := by
  refine ⟨fun h => ?_, fun h => h ▸ wordLenOfField_toField W⟩
  unfold wordLenOfField at h
  split at h
  · cases h; assumption
  · split at h
    · cases h; assumption
    · cases h

theorem wordLen?_eq_some {s : State} {W : WordLen} :
    wordLen? s = some W ↔ s.wordLen = W.toField := wordLenOfField_eq_some

theorem WordLen.toField_injective {W V : WordLen} (h : W.toField = V.toField) : W = V := by
  have := wordLenOfField_toField W
  rw [h, wordLenOfField_toField] at this
  exact (Option.some.inj this).symm

end Sys2Proof.Machine
end

