-- ==== Sys2Proof/Laws/Ops.lean ====
section
/-! SUPPORT. What each shared operation can do, said once. -/

namespace Sys2Proof.Machine

@[simp] theorem memWrite_length (dst : Buffer) (i : Nat) (v : Byte) :
    (memWrite dst i v).length = dst.length := List.length_set

theorem memWrite_at {dst : Buffer} {i : Nat} (v : Byte) (h : i < dst.length) :
    (memWrite dst i v)[i]? = some v := by simp [memWrite, h]

theorem memWrite_elsewhere (dst : Buffer) {i j : Nat} (v : Byte) (h : i ≠ j) :
    (memWrite dst i v)[j]? = dst[j]? := by simp [memWrite, h]

@[simp] theorem destination_length (n : Nat) : (destination n).length = n := by simp [destination]

@[simp] theorem writeWord_length (w : BusWord) (dst : Buffer) :
    (writeWord w dst).length = dst.length := by cases w <;> simp [writeWord]

/-- A DECODE touches no index at or past its word's length. -/
theorem writeWord_elsewhere (w : BusWord) (dst : Buffer) {j : Nat} (h : w.len.bytes ≤ j) :
    (writeWord w dst)[j]? = dst[j]? := by
  cases w <;> simp only [BusWord.len, WordLen.bytes] at h <;> simp only [writeWord]
  · exact memWrite_elsewhere _ _ (by omega)
  · rw [memWrite_elsewhere _ _ (by omega), memWrite_elsewhere _ _ (by omega)]

theorem writeWord_w8 (b : Byte) {dst : Buffer} (h : dst.length = 1) :
    writeWord (.w8 b) dst = [b] := by
  obtain ⟨x, rfl⟩ := List.length_eq_one_iff.mp h
  rfl

theorem writeWord_w16 (w : BitVec 16) {dst : Buffer} (h : dst.length = 2) :
    writeWord (.w16 w) dst = [highByte w, lowByte w] := by
  obtain ⟨x, y, rfl⟩ := List.length_eq_two.mp h
  rfl

@[simp] theorem wordOperand_len (W : WordLen) (data : BitVec 16) : (wordOperand W data).len = W := by
  cases W <;> rfl

@[simp] theorem readWord_len (W : WordLen) (src : Buffer) (h : src.length = W.bytes) :
    (readWord W src h).len = W := by cases W <;> rfl

theorem readWord_one (b : Byte) (h : [b].length = WordLen.one.bytes) :
    readWord .one [b] h = .w8 b := rfl

theorem readWord_two (b c : Byte) (h : [b, c].length = WordLen.two.bytes) :
    readWord .two [b, c] h = .w16 (b ++ c) := rfl

/-- The bits of two bytes put together, the first byte high. -/
theorem twoBytes_bit (b c : Byte) (i : Nat) :
    (b ++ c : BitVec 16).getLsbD i = if i < 8 then c.getLsbD i else b.getLsbD (i - 8) :=
  BitVec.getLsbD_append

@[simp] theorem highByte_twoBytes (b c : Byte) : highByte (b ++ c) = b := by
  refine BitVec.eq_of_getLsbD_eq fun i hi => ?_
  rw [highByte, BitVec.getLsbD_extractLsb', twoBytes_bit]
  simp [hi]

@[simp] theorem lowByte_twoBytes (b c : Byte) : lowByte (b ++ c) = c := by
  refine BitVec.eq_of_getLsbD_eq fun i hi => ?_
  rw [lowByte, BitVec.getLsbD_extractLsb', twoBytes_bit]
  simp [hi]

/-- A 2-byte word is its high byte, then its low byte. -/
@[simp] theorem twoBytes_halves (w : BitVec 16) : highByte w ++ lowByte w = w := by
  refine BitVec.eq_of_getLsbD_eq fun i hi => ?_
  rw [twoBytes_bit, highByte, lowByte]
  split
  · simp [*]
  · simp [show i - 8 < 8 by omega, show 8 + (i - 8) = i by omega]

/-- The low byte of a right-aligned 1-byte word is that word. -/
@[simp] theorem lowByte_zeroExtend (b : Byte) : lowByte (b.zeroExtend 16) = b := by
  refine BitVec.eq_of_getLsbD_eq fun i hi => ?_
  simp [lowByte, hi, show i < 16 by omega]

/-- A bus word is the operand its right-aligned form states. -/
@[simp] theorem wordOperand_rightAligned (w : BusWord) : wordOperand w.len w.rightAligned = w := by
  cases w <;> simp [wordOperand, BusWord.len, BusWord.rightAligned]

/-- Everything a guarded meaning can do. -/
theorem whenRunning_cases (s : State) (body : WordLen → Host.Outcome State Fault Refusal) :
    (wordLen? s = none ∧ whenRunning s body = .refused .config) ∨
    (∃ W : WordLen, s.wordLen = W.toField ∧ s.fault = true ∧ whenRunning s body = .fault .halted) ∨
    (∃ W : WordLen, s.wordLen = W.toField ∧ s.fault = false ∧ whenRunning s body = body W) := by
  unfold whenRunning halted
  cases hW : wordLen? s with
  | none => exact .inl ⟨rfl, rfl⟩
  | some W =>
    have hf := wordLen?_eq_some.mp hW
    cases h : s.fault
    · exact .inr (.inr ⟨W, hf, rfl, by simp⟩)
    · exact .inr (.inl ⟨W, hf, rfl, by simp⟩)

/-- On a live instance the guard passes. -/
theorem whenRunning_live {s : State} {W : WordLen} (hW : s.wordLen = W.toField)
    (hf : s.fault = false) (body : WordLen → Host.Outcome State Fault Refusal) :
    whenRunning s body = body W := by
  simp [whenRunning, halted, wordLen?_eq_some.mpr hW, hf]

/-- Everything taking one issue can find. -/
theorem takeIssue_cases (W : WordLen) (s : State) (a : Arrival) (p : Presented) :
    (a ≠ .serial ∧ takeIssue W s a p = .refuse .overlap) ∨
    (a = .serial ∧ s.fault = true ∧ takeIssue W s a p = .stop .halted) ∨
    (a = .serial ∧ s.fault = false ∧ ∃ e, readPresented W p = .error e ∧
      takeIssue W s a p = .refuse (refusalOf e)) ∨
    (a = .serial ∧ s.fault = false ∧ ∃ i, readPresented W p = .ok i ∧
      takeIssue W s a p = .transact i s) := by
  unfold takeIssue halted
  by_cases ha : a = .serial
  · cases hf : s.fault
    · cases hp : readPresented W p <;> simp [ha]
    · simp [ha]
  · simp [ha]

/-- Everything the fetch can find. -/
theorem fetch_cases (s : State) :
    (∃ r, s.refusedMark = some r ∧ fetch s = .refuse r) ∨
    (s.refusedMark = none ∧ wordLen? s = none ∧ fetch s = .refuse .config) ∨
    (s.refusedMark = none ∧ ∃ W : WordLen, s.wordLen = W.toField ∧
      ((s.pending = [] ∧ fetch s = .quiet s) ∨
       (∃ rest, s.pending = .reset :: rest ∧
          fetch s = .quiet (resetBlock { s with pending := rest })) ∨
       (∃ a p rest, s.pending = .issue a p :: rest ∧
          fetch s = takeIssue W { s with pending := rest } a p))) := by
  unfold fetch
  cases hm : s.refusedMark with
  | some r => exact .inl ⟨r, rfl, rfl⟩
  | none =>
    cases hW : wordLen? s with
    | none => exact .inr (.inl ⟨rfl, rfl, rfl⟩)
    | some W =>
      refine .inr (.inr ⟨rfl, W, wordLen?_eq_some.mp hW, ?_⟩)
      rcases hp : s.pending with _ | ⟨_ | _, rest⟩
      · exact .inl ⟨rfl, rfl⟩
      · exact .inr (.inr ⟨_, _, rest, rfl, rfl⟩)
      · exact .inr (.inl ⟨rest, rfl, rfl⟩)

end Sys2Proof.Machine
end

