-- ==== Sys2Proof/Laws/Txn32.lean ====
section
/-! SUPPORT. The fields of a packed TXN32 read back as they were packed, a TXN32 is its fields, and
what transcription answers. -/

namespace Sys2Proof

theorem packTxn32_bit (op : BitVec 1) (len : BitVec 8) (data : BitVec 16) (i : Nat) :
    (packTxn32 op len data).getLsbD i =
      if i < 16 then data.getLsbD i else if i < 24 then len.getLsbD (i - 16)
      else if i < 31 then false else op.getLsbD (i - 31) := by
  simp only [packTxn32, BitVec.getLsbD_append]
  by_cases h1 : i < 16
  · simp [h1, show i < 24 by omega, show i < 31 by omega]
  · by_cases h2 : i < 24
    · simp [h1, h2, show i - 16 < 8 by omega, show i < 31 by omega]
    · by_cases h3 : i < 31
      · simp [h1, h2, h3]
      · simp [h1, h2, h3]

@[simp] theorem txnOp_pack (op : BitVec 1) (len : BitVec 8) (data : BitVec 16) :
    txnOp (packTxn32 op len data) = op := by
  refine BitVec.eq_of_getLsbD_eq fun i hi => ?_
  simp [txnOp, packTxn32_bit, hi, show ¬ 31 + i < 16 by omega, show ¬ 31 + i < 24 by omega]

@[simp] theorem txnRsv_pack (op : BitVec 1) (len : BitVec 8) (data : BitVec 16) :
    txnRsv (packTxn32 op len data) = 0 := by
  refine BitVec.eq_of_getLsbD_eq fun i hi => ?_
  simp [txnRsv, packTxn32_bit, hi, show ¬ 24 + i < 16 by omega, show 24 + i < 31 by omega]

@[simp] theorem txnLen_pack (op : BitVec 1) (len : BitVec 8) (data : BitVec 16) :
    txnLen (packTxn32 op len data) = len := by
  refine BitVec.eq_of_getLsbD_eq fun i hi => ?_
  simp [txnLen, packTxn32_bit, hi, show 16 + i < 24 by omega]

@[simp] theorem txnData_pack (op : BitVec 1) (len : BitVec 8) (data : BitVec 16) :
    txnData (packTxn32 op len data) = data := by
  refine BitVec.eq_of_getLsbD_eq fun i hi => ?_
  simp [txnData, packTxn32_bit, hi]

/-- The data field is its two lanes, lane 0 high. -/
theorem txnData_lanes (t : Txn32) : txnData t = txnB0 t ++ txnB1 t := by
  refine BitVec.eq_of_getLsbD_eq fun i hi => ?_
  simp only [txnData, txnB0, txnB1, BitVec.getLsbD_extractLsb', BitVec.getLsbD_append]
  by_cases h : i < 8
  · simp [h, hi]
  · simp [h, hi, show i - 8 < 8 by omega, show 8 + (i - 8) = i by omega]

@[simp] theorem txnB0_pack (op : BitVec 1) (len : BitVec 8) (b0 b1 : Byte) :
    txnB0 (packTxn32 op len (b0 ++ b1)) = b0 := by
  refine BitVec.eq_of_getLsbD_eq fun i hi => ?_
  simp only [txnB0, BitVec.getLsbD_extractLsb', packTxn32_bit, BitVec.getLsbD_append]
  simp [hi, show 8 + i < 16 by omega]

@[simp] theorem txnB1_pack (op : BitVec 1) (len : BitVec 8) (b0 b1 : Byte) :
    txnB1 (packTxn32 op len (b0 ++ b1)) = b1 := by
  refine BitVec.eq_of_getLsbD_eq fun i hi => ?_
  simp only [txnB1, BitVec.getLsbD_extractLsb', packTxn32_bit, BitVec.getLsbD_append]
  simp [hi, show i < 16 by omega]

/-- A TXN32 with no reserved bit set is its fields. -/
theorem packTxn32_fields {t : Txn32} (h : txnRsv t = 0) :
    packTxn32 (txnOp t) (txnLen t) (txnData t) = t := by
  refine BitVec.eq_of_getLsbD_eq fun i hi => ?_
  rw [packTxn32_bit]
  split
  · simp [txnData, *]
  · split
    · simp only [txnLen, BitVec.getLsbD_extractLsb']
      simp [show i - 16 < 8 by omega, show 16 + (i - 16) = i by omega]
    · split
      · have := congrArg (fun v => v.getLsbD (i - 24)) h
        simp only [txnRsv, BitVec.getLsbD_extractLsb', show i - 24 < 7 by omega,
          show 24 + (i - 24) = i by omega] at this
        simpa using this.symm
      · simp only [txnOp, BitVec.getLsbD_extractLsb']
        simp [show i - 31 < 1 by omega, show 31 + (i - 31) = i by omega]

theorem op_ne_zero {b : BitVec 1} (h : b ≠ 0) : b = 1 := by
  revert b; decide

@[simp] theorem txnSource_length (t : Txn32) : (txnSource t).length = (txnLen t).toNat := by
  simp [txnSource]; omega

/-- Everything transcription can answer. -/
theorem transcribe_cases (W : WordLen) (t : Txn32) :
    (txnRsv t ≠ 0 ∧ transcribe W t = .error .reserved) ∨
    (txnRsv t = 0 ∧ txnOp t = 0 ∧ encodeLaneViolation t = true ∧ transcribe W t = .error .lane) ∨
    (txnRsv t = 0 ∧ txnOp t = 0 ∧ encodeLaneViolation t = false ∧
      transcribe W t = .ok (.encode (txnSource t))) ∨
    (txnRsv t = 0 ∧ txnOp t = 1 ∧ decodeLaneViolation W t = true ∧
      transcribe W t = .error .lane) ∨
    (txnRsv t = 0 ∧ txnOp t = 1 ∧ decodeLaneViolation W t = false ∧
      transcribe W t = .ok (.decode (txnData t) (txnLen t).toNat)) := by
  unfold transcribe
  by_cases hr : txnRsv t = 0
  · by_cases ho : txnOp t = 0
    · cases hl : encodeLaneViolation t <;> simp [hr, ho]
    · cases hl : decodeLaneViolation W t <;> simp [hr, op_ne_zero ho]
  · exact .inl ⟨hr, if_pos hr⟩

end Sys2Proof
end

