-- ==== Sys2Proof/Laws/PerInstr.lean ====
section
/-! SUPPORT. Statements made per instruction: the encoding of each lies on its row of
spec/opcode_table.json. -/

namespace Sys2Proof.Laws.TableRow

/-- The `match` of an instruction's row in spec/opcode_table.json. -/
def rowMatch : Instr → Txn32
  | .encode _ => 0x00000000#32
  | .decode _ _ => 0x80000000#32

/-- An instruction's TXN32 has its row's fixed bits under the row's mask. -/
def Statement (i : Instr) : Prop := encodeTxn32 i &&& 0xFF000000#32 = rowMatch i

/-- The mask keeps the operation bit and the reserved bits, which are zero. -/
theorem packTxn32_masked (op : BitVec 1) (len : BitVec 8) (data : BitVec 16) :
    packTxn32 op len data &&& 0xFF000000#32 = packTxn32 op 0 0 := by
  refine BitVec.eq_of_getLsbD_eq fun i hi => ?_
  rw [BitVec.getLsbD_and, packTxn32_bit, packTxn32_bit]
  have mask : ∀ j < 32, (0xFF000000#32).getLsbD j = decide (24 ≤ j) := by decide
  rw [mask i hi]
  by_cases h1 : i < 16
  · simp [h1, show ¬ 24 ≤ i by omega]
  · by_cases h2 : i < 24
    · simp [h1, h2, show ¬ 24 ≤ i by omega]
    · simp [h1, h2, show 24 ≤ i by omega]

theorem encode (src : Buffer) : Statement (.encode src) := by
  rw [Statement, encodeTxn32, packTxn32_masked]
  rfl

theorem decode (data : BitVec 16) (n : Nat) : Statement (.decode data n) := by
  rw [Statement, encodeTxn32, packTxn32_masked]
  rfl

end Sys2Proof.Laws.TableRow
end

