-- ==== Sys2Proof/Laws/Step.lean ====
section
/-! SUPPORT. What a transaction and a step can do, said once: the spec lemmas of the two meanings
and the inversion lemmas of `exec`, `step` and `advance`. -/

namespace Sys2Proof.Machine

theorem execEncode_live {s : State} {W : WordLen} (hW : s.wordLen = W.toField)
    (hf : s.fault = false) (src : Buffer) :
    execEncode src s =
      if h : src.length = W.bytes then .next (deliver s (.word (readWord W src h)))
      else .next (raisePrecondLen s opEncode src.length) :=
  whenRunning_live hW hf _

theorem execDecode_live {s : State} {W : WordLen} (hW : s.wordLen = W.toField)
    (hf : s.fault = false) (data : BitVec 16) (n : Nat) :
    execDecode data n s =
      if n = W.bytes then
        .next (deliver s (.buffer (writeWord (wordOperand W data) (destination n))))
      else .next (raisePrecondLen s opDecode n) :=
  whenRunning_live hW hf _

/-- What a transaction that answers a next state did: it delivered one result of the instance's
word length, or it took `PRECOND_LEN`. -/
theorem exec_next_cases {i : Instr} {s s' : State} (h : exec i s = .next s') :
    ∃ W : WordLen, s.wordLen = W.toField ∧ s.fault = false ∧
      ((i.length = W.bytes ∧ ((∃ w : BusWord, w.len = W ∧ s' = deliver s (.word w)) ∨
          ∃ dst : Buffer, dst.length = W.bytes ∧ s' = deliver s (.buffer dst))) ∨
       (i.length ≠ W.bytes ∧ ∃ op, s' = raisePrecondLen s op i.length)) := by
  cases i with
  | encode src =>
    replace h : whenRunning s _ = .next s' := h
    rcases whenRunning_cases s _ with ⟨-, hr⟩ | ⟨W, -, -, hr⟩ | ⟨W, hW, hf, hr⟩ <;> rw [hr] at h
    · cases h
    · cases h
    · refine ⟨W, hW, hf, ?_⟩
      split at h <;> cases h
      · exact .inl ⟨‹_›, .inl ⟨_, readWord_len .., rfl⟩⟩
      · exact .inr ⟨‹_›, _, rfl⟩
  | decode data n =>
    replace h : whenRunning s _ = .next s' := h
    rcases whenRunning_cases s _ with ⟨-, hr⟩ | ⟨W, -, -, hr⟩ | ⟨W, hW, hf, hr⟩ <;> rw [hr] at h
    · cases h
    · cases h
    · refine ⟨W, hW, hf, ?_⟩
      split at h <;> cases h
      · exact .inl ⟨‹_›, .inr ⟨_, by simpa using ‹n = W.bytes›, rfl⟩⟩
      · exact .inr ⟨‹_›, _, rfl⟩

/-- A step that answers a next state was idle, took a reset, or ran one transaction. -/
theorem step_next_cases {s s' : State} (h : step s = .next s') :
    s.refusedMark = none ∧ ∃ W : WordLen, s.wordLen = W.toField ∧
      ((s.pending = [] ∧ s' = s) ∨
       (∃ rest, s.pending = .reset :: rest ∧ s' = resetBlock { s with pending := rest }) ∨
       (∃ p rest i, s.pending = .issue .serial p :: rest ∧ s.fault = false ∧
          readPresented W p = .ok i ∧ exec i { s with pending := rest } = .next s')) := by
  unfold step at h
  rcases fetch_cases s with ⟨r, -, hf⟩ | ⟨-, -, hf⟩ | ⟨hm, W, hW, ⟨hp, hf⟩ | ⟨rest, hp, hf⟩ |
    ⟨a, p, rest, hp, hf⟩⟩ <;> rw [hf] at h
  · cases h
  · cases h
  · exact ⟨hm, W, hW, .inl ⟨hp, by cases h; rfl⟩⟩
  · exact ⟨hm, W, hW, .inr (.inl ⟨rest, hp, by cases h; rfl⟩)⟩
  · rcases takeIssue_cases W { s with pending := rest } a p with ⟨-, ht⟩ | ⟨-, -, ht⟩ |
      ⟨-, -, e, -, ht⟩ | ⟨rfl, hff, i, hi, ht⟩ <;> rw [ht] at h
    · cases h
    · cases h
    · cases h
    · exact ⟨hm, W, hW, .inr (.inr ⟨p, rest, i, hp, hff, hi, h⟩)⟩

/-- A marked run answers its mark at every step. -/
theorem step_marked {s : State} {r : Refusal} (h : s.refusedMark = some r) : step s = .refused r := by
  simp [step, fetch, h]

/-- Issuing a transaction in its turn on a running instance runs what it stands for. -/
theorem step_issue {s : State} {W : WordLen} {p : Presented} {rest : List Event} {i : Instr}
    (hm : s.refusedMark = none) (hW : s.wordLen = W.toField) (hf : s.fault = false)
    (hp : s.pending = .issue .serial p :: rest) (hi : readPresented W p = .ok i) :
    step s = exec i { s with pending := rest } := by
  simp [step, fetch, hm, wordLen?_eq_some.mpr hW, hp, takeIssue, halted, hf, hi]

/-- A transaction issued in its turn on a halted instance is stuck. -/
theorem step_halted {s : State} {W : WordLen} {p : Presented} {rest : List Event}
    (hm : s.refusedMark = none) (hW : s.wordLen = W.toField) (hf : s.fault = true)
    (hp : s.pending = .issue .serial p :: rest) : step s = .fault .halted := by
  simp [step, fetch, hm, wordLen?_eq_some.mpr hW, hp, takeIssue, halted, hf]

/-- Once set, the refused mark stays at every later step. -/
theorem advance_marked {s : State} {r : Refusal} (h : s.refusedMark = some r) : advance s = s := by
  rw [advance, step_marked h]
  cases s
  simp_all [markRefused]

end Sys2Proof.Machine
end

