-- ==== Sys2Proof/Laws/Run.lean ====
section
/-! SUPPORT. Runs, one step at a time and in two parts. -/

namespace Sys2Proof.Machine

theorem run_succ_next {s s' : State} (h : step s = .next s') (k : Nat) :
    run (k + 1) s = run k s' := by rw [run, h]

theorem run_succ_fault {s : State} {f : Fault} (h : step s = .fault f) (k : Nat) :
    run (k + 1) s = .fault f := by rw [run, h]

theorem run_succ_refused {s : State} {r : Refusal} (h : step s = .refused r) (k : Nat) :
    run (k + 1) s = .refused r := by rw [run, h]

/-- A run in two parts. -/
theorem run_add {s t : State} {n : Nat} (h : run n s = .next t) (k : Nat) :
    run (n + k) s = run k t := by
  induction n generalizing s with
  | zero => cases h; rw [Nat.zero_add]
  | succ n ih =>
    cases hs : step s with
    | next s' =>
      rw [run_succ_next hs] at h
      rw [Nat.succ_add, run_succ_next hs]
      exact ih h
    | fault f => rw [run_succ_fault hs] at h; cases h
    | refused r => rw [run_succ_refused hs] at h; cases h

theorem coreRun_succ (M : Host.Core) (k : Nat) (s : M.State) :
    M.run (k + 1) s = match M.step s with
      | .next s' => M.run k s'
      | .fault f => .fault f
      | .refused r => .refused r := rfl

theorem coreRun_next {M : Host.Core} {s s' : M.State} (h : M.step s = .next s') (k : Nat) :
    M.run (k + 1) s = M.run k s' := by rw [coreRun_succ, h]

theorem coreRun_fault {M : Host.Core} {s : M.State} {f : M.Fault} (h : M.step s = .fault f)
    (k : Nat) : M.run (k + 1) s = .fault f := by rw [coreRun_succ, h]

theorem coreRun_refused {M : Host.Core} {s : M.State} {r : M.Refusal} (h : M.step s = .refused r)
    (k : Nat) : M.run (k + 1) s = .refused r := by rw [coreRun_succ, h]

/-- The run of the host's interface is the model's own. -/
theorem coreRun_eq_run (k : Nat) : ∀ s : State, Host.Core.run Sys2Proof.core k s = run k s := by
  induction k with
  | zero => exact fun _ => rfl
  | succ k ih =>
    intro s
    cases h : step s with
    | next s' =>
      exact (coreRun_next (M := Sys2Proof.core) h k).trans ((ih s').trans (run_succ_next h k).symm)
    | fault f => exact (coreRun_fault (M := Sys2Proof.core) h k).trans (run_succ_fault h k).symm
    | refused r =>
      exact (coreRun_refused (M := Sys2Proof.core) h k).trans (run_succ_refused h k).symm

end Sys2Proof.Machine
end

