-- ==== Sys2Proof/Tests/Slice0.lean ====
section
/-! SUPPORT. The model's own tests: ill-formed terms refused, words written out from the spec's
encodings, single steps from the spec's tables, and a state that meets the hypotheses of each
statement that has some. -/

namespace Sys2Proof.Tests

open Sys2Proof.Machine

/-! ### Helpers -/

/-- An instance with a consumer's list. -/
def live (W : WordLen) (pending : List Event) : State :=
  { State.instantiate W with pending := pending }

/-- A 2-byte instance halted by `encode` of one byte (95_test_vectors.md P3, step 2). -/
def halted2 (pending : List Event) : State :=
  { live .two pending with fault := true, faultInfo := { cause := 1, op := 0, len := 1 } }

/-- The next state of an outcome, if it has one. -/
def next? : Host.Outcome State Fault Refusal → Option State
  | .next s => some s
  | _ => none

/-- The refusal of an outcome, if it is one. -/
def refusal? : Host.Outcome State Fault Refusal → Option Refusal
  | .refused r => some r
  | _ => none

/-- The fault of an outcome, if it is one. -/
def fault? : Host.Outcome State Fault Refusal → Option Fault
  | .fault f => some f
  | _ => none

/-- The transaction a transcription gives, if it gives one. -/
def instr? : Except Reject Instr → Option Instr
  | .ok i => some i
  | .error _ => none

/-- The rejection of a transcription, if it is one. -/
def reject? : Except Reject Instr → Option Reject
  | .ok _ => none
  | .error e => some e

/-- One step on an instance that is issued one TXN32. -/
def stepWord (W : WordLen) (t : Txn32) : Host.Outcome State Fault Refusal :=
  step (live W [serially (.txn32 t)])

/-! ### WellFormed refuses each ill-formed term -/

theorem test_wide_operand_is_no_one_byte_word : fitsWord .one 0x0100#16 = false := by decide
theorem test_widest_one_byte_word_fits : fitsWord .one 0x00FF#16 = true := by decide
theorem test_decode_of_wide_operand_ill_formed :
    (Instr.decode 0x1234#16 1).wellFormed .one = false := by decide
theorem test_txn32_length_bounds :
    (Instr.decode 0#16 256).fitsTxn32 .two = false ∧
    (Instr.decode 0#16 255).fitsTxn32 .two = true ∧
    (Instr.decode 0x1234#16 1).fitsTxn32 .one = false := by decide
theorem test_txn32_source_length_bound (src : Buffer) (h : src.length = 256) :
    (Instr.encode src).fitsTxn32 .two = false := by
  simp [Instr.fitsTxn32, Instr.length, h]
theorem test_assembler_refuses_ill_formed_lines :
    assemble .one (.decode 0x1234#16 1) = none ∧ assemble .two (.decode 0#16 256) = none := by decide
theorem test_assembler_refuses_too_long_a_list (src : Buffer) (h : src.length = 256) :
    assemble .two (.encode src) = none := by
  simp [assemble, AsmLine.wellFormed, h]

/-! ### Words written out from the spec's encodings -/

/-- ENCODE's word bit by bit: OP 0, RSV 0, LEN 2, B0 0x12, B1 0x34 (30_encoding.md section 6). -/
theorem test_encode_word_decodes :
    instr? (transcribe .two 0b00000000000000100001001000110100#32)
      = some (.encode [0x12#8, 0x34#8]) := by decide
/-- DECODE's word bit by bit: OP 1, RSV 0, LEN 1, DATA 0x00AB (30_encoding.md section 6). -/
theorem test_decode_word_decodes :
    instr? (transcribe .one 0b10000000000000010000000010101011#32)
      = some (.decode 0x00AB#16 1) := by decide
/-- The rows' own words in spec/opcode_table.json, with every operand bit zero. -/
theorem test_table_rows_decode :
    decodeTableWord 32 0x00000000 = some (.encode []) ∧
    decodeTableWord 32 0x80000000 = some (.decode 0#16 0) := by decide
/-- The rows' own words run as the first transaction after reset: both present length 0
(95_test_vectors.md E12, DC13). -/
theorem test_table_rows_run_after_reset :
    (next? (step (State.reset.withFetchWord 32 0x00000000))).map (·.faultInfo)
      = some { cause := 1, op := 0, len := 0 } ∧
    (next? (step (State.reset.withFetchWord 32 0x80000000))).map (·.faultInfo)
      = some { cause := 1, op := 1, len := 0 } := by decide
/-- 95_test_vectors.md T1, T3, T12 (reserved bits first). -/
theorem test_reserved_words_refused :
    refusal? (stepWord .two 0x01021234#32) = some .reserved ∧
    refusal? (stepWord .two 0x81021234#32) = some .reserved ∧
    refusal? (stepWord .one 0x01010000#32) = some .reserved := by decide
/-- 95_test_vectors.md T4 to T7. -/
theorem test_lane_words_refused :
    refusal? (stepWord .two 0x00011234#32) = some .lane ∧
    refusal? (stepWord .two 0x00000001#32) = some .lane ∧
    refusal? (stepWord .two 0x00000100#32) = some .lane ∧
    refusal? (stepWord .one 0x80011234#32) = some .lane := by decide
/-- 30_encoding.md R41: the worked encodings. -/
theorem test_assembler_worked_encodings :
    assemble .two (.encode [0x12#8, 0x34#8]) = some 0x00021234#32 ∧
    assemble .two (.decode 0x1234#16 2) = some 0x80021234#32 ∧
    assemble .one (.encode [0xAB#8]) = some 0x0001AB00#32 ∧
    assemble .one (.decode 0x00AB#16 1) = some 0x800100AB#32 ∧
    assemble .two .encz = some 0x00020000#32 := by decide

/-! ### Single steps from the spec's tables -/

/-- 95_test_vectors.md E6 and E9: byte order, and the word of a 1-byte instance. -/
theorem test_encode_results :
    (next? (stepWord .two 0x00020100#32)).map (·.delivered.map result16) = some [0x0100#16] ∧
    (next? (stepWord .one 0x0001AB00#32)).map (·.delivered.map result16) = some [0x00AB#16] := by
  decide
/-- 95_test_vectors.md E14 and E15: a longer buffer faults, its length recorded. -/
theorem test_encode_faults :
    (next? (stepWord .two 0x00030102#32)).map (·.faultInfo)
      = some { cause := 1, op := 0, len := 3 } ∧
    (next? (stepWord .one 0x00020102#32)).map (·.faultInfo)
      = some { cause := 1, op := 0, len := 2 } := by decide
/-- 95_test_vectors.md DC2 and DC6: byte lanes of the destination. -/
theorem test_decode_results :
    (next? (stepWord .two 0x8002BEEF#32)).map (·.delivered) = some [.buffer [0xBE#8, 0xEF#8]] ∧
    (next? (stepWord .one 0x8001005A#32)).map (·.delivered.map result16) = some [0x5A00#16] := by
  decide
/-- 95_test_vectors.md DC9 and DC11: a multiple of `W` and a larger destination fault. -/
theorem test_decode_faults :
    (next? (stepWord .two 0x80041234#32)).map (·.faultInfo)
      = some { cause := 1, op := 1, len := 4 } ∧
    (next? (stepWord .one 0x80020012#32)).map (·.faultInfo)
      = some { cause := 1, op := 1, len := 2 } := by decide
/-- 95_test_vectors.md T13 to T16, RS1: refused instances, the stuck state, and reset. -/
theorem test_build_stuck_and_reset :
    refusal? (build 3) = some .config ∧ refusal? (build 0) = some .config ∧
    fault? (step (halted2 [serially (.txn32 0x01021234#32)])) = some .halted ∧
    fault? (step (halted2 [serially (.txn32 0x00021234#32)])) = some .halted ∧
    next? (step (halted2 [.reset])) = some (State.instantiate .two) := by decide

/-! ### Witnesses: states and operands that meet the hypotheses of the statements -/

theorem test_witness_transcription_fields :
    (0x7F000000#32).toNat / 2 ^ 24 % 128 ≠ 0 ∧
    ((0x00000001#32).toNat / 2 ^ 31 = 0 ∧ (0x00000001#32).toNat / 2 ^ 16 % 256 = 0 ∧
      (0x00000001#32).toNat % 256 ≠ 0) ∧
    ((0x0001AB00#32).toNat / 2 ^ 16 % 256 = 1 ∧ (0x0001AB00#32).toNat % 256 = 0) ∧
    ((0x00FF1234#32).toNat / 2 ^ 31 = 0 ∧ (0x00FF1234#32).toNat / 2 ^ 16 % 256 = 255) ∧
    ((0x80011234#32).toNat / 2 ^ 31 = 1 ∧ (0x80011234#32).toNat / 2 ^ 8 % 256 ≠ 0) ∧
    ((0x80010034#32).toNat / 2 ^ 31 = 1 ∧ (0x80010034#32).toNat / 2 ^ 8 % 256 = 0) := by decide
theorem test_witness_fitsTxn32 :
    (Instr.encode []).fitsTxn32 .one = true ∧ (Instr.encode [1#8, 2#8]).fitsTxn32 .one = true ∧
    (Instr.encode [1#8, 2#8, 3#8]).fitsTxn32 .two = true ∧
    (Instr.decode 0x00FF#16 255).fitsTxn32 .one = true ∧
    (Instr.decode 0xFFFF#16 0).fitsTxn32 .two = true := by decide
theorem test_witness_transcribe_ok :
    instr? (transcribe .two 0x80FF0000#32) = some (.decode 0#16 255) ∧
    instr? (transcribe .two 0x0001AB00#32) = some (.encode [0xAB#8]) := by decide
theorem test_witness_uncarried_bytes :
    [1#8, 2#8, 3#8].length = [1#8, 2#8, 9#8].length ∧
    [1#8, 2#8, 3#8].take 2 = [1#8, 2#8, 9#8].take 2 := by decide
theorem test_witness_assembler :
    ([] : Buffer).length < 256 ∧ [1#8, 2#8, 3#8].length < 256 ∧ 2 < [1#8, 2#8, 3#8].length ∧
    (BusWord.w8 0xFF#8).len = .one ∧ (BusWord.w16 0x8001#16).len = .two ∧ 255 < 256 := by decide
theorem test_witness_live : Live .one (live .one []) ∧ Live .two (live .two []) := by decide
theorem test_witness_right_lengths :
    [0xAB#8].length = WordLen.one.bytes ∧ [0x12#8, 0x34#8].length = WordLen.two.bytes ∧
    (Instr.decode 0x12#16 1).length = WordLen.one.bytes ∧
    (Instr.decode 0x12#16 2).length = WordLen.two.bytes := by decide
theorem test_witness_wrong_lengths :
    ([] : Buffer).length ≠ WordLen.one.bytes ∧ [1#8, 2#8].length ≠ WordLen.one.bytes ∧
    [1#8].length ≠ WordLen.two.bytes ∧ [1#8, 2#8, 3#8].length ≠ WordLen.two.bytes ∧
    (Instr.decode 0x1234#16 0).length ≠ WordLen.two.bytes ∧
    (Instr.decode 0x1234#16 4).length ≠ WordLen.two.bytes ∧
    0 ≠ WordLen.one.bytes ∧ 2 ≠ WordLen.one.bytes ∧ 1 ≠ WordLen.two.bytes ∧
    255 ≠ WordLen.two.bytes := by decide
/-- Two buffers of one wrong length that differ. -/
theorem test_witness_length_decides :
    [1#8].length = [2#8].length ∧ [1#8].length ≠ WordLen.two.bytes ∧ [1#8] ≠ [2#8] := by decide
theorem test_witness_faulting_transaction_delivers_nothing :
    Live .two (live .two []) ∧ (Instr.encode [1#8]).length ≠ WordLen.two.bytes ∧
    next? (exec (.encode [1#8]) (live .two [])) = some (halted2 []) := by decide
/-- A destination longer than the word, and one of exactly its length. -/
theorem test_witness_destination_length :
    WordLen.two.bytes ≤ [7#8, 8#8, 9#8].length ∧ WordLen.two.bytes ≤ [7#8, 8#8].length ∧
    WordLen.one.bytes ≤ [7#8].length := by decide
theorem test_witness_reset_is_taken :
    (live .two [.reset]).refusedMark = none ∧ (live .two [.reset]).pending = .reset :: [] ∧
    (live .two [.reset]).wordLen = WordLen.two.toField := by decide
theorem test_witness_reset_clears_a_set_latch :
    (halted2 [.reset]).fault = true ∧
    (next? (step (halted2 [.reset]))).map (·.fault) = some false := by decide
/-- A reset and then a transaction, the 1-byte instance's and the 2-byte instance's. -/
theorem test_witness_first_after_reset :
    (live .one [.reset, serially (.txn32 0x8001005A#32)]).wordLen = WordLen.one.toField ∧
    (live .one [.reset, serially (.txn32 0x8001005A#32)]).refusedMark = none ∧
    (live .one [.reset, serially (.txn32 0x8001005A#32)]).pending
      = .reset :: serially (.txn32 0x8001005A#32) :: [] ∧
    instr? (readPresented .one (.txn32 0x8001005A#32)) = some (.decode 0x5A#16 1) ∧
    (next? (exec (.decode 0x5A#16 1) (live .one []))).isSome := by decide
/-- A halted 2-byte instance whose stuck transaction, with a reset put before it, is taken next and
faults again, with its own record. -/
theorem test_witness_first_after_reset_of_a_stuck_one :
    (assertReset (halted2 [serially (.txn32 0x80041234#32)])).wordLen = WordLen.two.toField ∧
    (assertReset (halted2 [serially (.txn32 0x80041234#32)])).fault = true ∧
    (assertReset (halted2 [serially (.txn32 0x80041234#32)])).refusedMark = none ∧
    (assertReset (halted2 [serially (.txn32 0x80041234#32)])).pending
      = .reset :: serially (.txn32 0x80041234#32) :: [] ∧
    instr? (readPresented .two (.txn32 0x80041234#32)) = some (.decode 0x1234#16 4) ∧
    Live .two (live .two []) ∧
    (next? (exec (.decode 0x1234#16 4) (live .two []))).map (·.faultInfo)
      = some { cause := 1, op := 1, len := 4 } := by decide
/-- The two illegal values of `CFG.WORD_LEN`, and illegal requests. -/
theorem test_witness_illegal_configuration :
    ({ live .two [] with wordLen := 0b00#2 } : State).wordLen ≠ 0b01#2 ∧
    ({ live .two [] with wordLen := 0b00#2 } : State).wordLen ≠ 0b10#2 ∧
    ({ live .two [] with wordLen := 0b11#2 } : State).wordLen ≠ 0b10#2 ∧
    ({ live .two [] with wordLen := 0b11#2 } : State).refusedMark = none ∧
    (0 ≠ 1 ∧ 0 ≠ 2) ∧ (3 ≠ 1 ∧ 3 ≠ 2) := by decide
theorem test_witness_next_states :
    (next? (exec (.encode [1#8, 2#8]) (live .two []))).isSome ∧
    (next? (stepWord .two 0x00020102#32)).isSome ∧ (next? (step (live .one []))).isSome := by decide
theorem test_witness_fault_entry :
    Running .two (live .two [serially (.txn32 0x0001AB00#32)]) ∧
    instr? (readPresented .two (.txn32 0x0001AB00#32)) = some (.encode [0xAB#8]) ∧
    (Instr.encode [0xAB#8]).length ≠ WordLen.two.bytes ∧
    (0x0001AB00#32).toNat / 2 ^ 16 % 256 ≠ WordLen.two.bytes := by decide
/-- The abstract form carries lengths a TXN32 cannot (95_test_vectors.md E17). -/
theorem test_witness_fault_entry_abstract :
    Running .two (live .two [serially (.operands (.decode 0x1234#16 1000))]) ∧
    instr? (readPresented .two (.operands (.decode 0x1234#16 1000)))
      = some (.decode 0x1234#16 1000) ∧
    (Instr.decode 0x1234#16 1000).length ≠ WordLen.two.bytes := by decide
theorem test_witness_halted :
    (halted2 [serially (.txn32 0x80021234#32)]).wordLen = WordLen.two.toField ∧
    (halted2 [serially (.txn32 0x80021234#32)]).fault = true ∧
    (halted2 [serially (.txn32 0x80021234#32)]).refusedMark = none ∧
    (halted2 [serially (.txn32 0x80021234#32)]).pending
      = serially (.txn32 0x80021234#32) :: [] := by decide
/-- The latch set by a step, and the idle step of a halted block. -/
theorem test_witness_latch_steps :
    (live .two [serially (.txn32 0x0001AB00#32)]).fault = false ∧
    (next? (stepWord .two 0x0001AB00#32)).map (·.fault) = some true ∧
    next? (step (halted2 [])) = some (halted2 []) := by decide
/-- A step that leaves the latch clear, with a clear record before it. -/
theorem test_witness_clear_record :
    (next? (stepWord .two 0x00021234#32)).map (·.fault) = some false ∧
    (live .two []).faultInfo = { cause := 0, op := 0, len := 0 } := by decide
theorem test_witness_refusals :
    refusal? (stepWord .two 0x01021234#32) = some .reserved ∧
    refusal? (step (live .one [serially (.operands (.decode 0x1234#16 1))])) = some .lane ∧
    refusal? (step (halted2 [.issue .secondContext (.txn32 0x00021234#32)])) = some .overlap ∧
    refusal? (step { live .two [] with wordLen := 0b11#2 }) = some .config := by decide
/-- One issue for each outcome of the ordered checks. -/
theorem test_witness_check_order :
    refusal? (step (live .two [.issue .beforeCompletion (.txn32 0x01021234#32)])) = some .overlap ∧
    fault? (step (halted2 [.issue .serial (.txn32 0x01021234#32)])) = some .halted ∧
    (0x01011234#32).toNat / 2 ^ 24 % 128 ≠ 0 ∧
    encodeLaneViolation 0x00011234#32 = true ∧ decodeLaneViolation .one 0x80011234#32 = true ∧
    (next? (stepWord .two 0x80011234#32)).map (·.fault) = some true ∧
    (next? (stepWord .one 0x80010034#32)).map (·.fault) = some false := by decide
/-- The lowest and the highest reserved bit. -/
theorem test_witness_reserved_bits :
    Running .two (live .two [serially (.txn32 0x01000000#32)]) ∧
    (0x01000000#32).getLsbD 24 = true ∧ (0x40000000#32).getLsbD 30 = true := by decide
/-- Each empty-lane clause at a boundary, and its admitted neighbours. -/
theorem test_witness_lanes :
    Running .one (live .one [serially (.txn32 0x80010100#32)]) ∧
    (0x80010100#32).toNat / 2 ^ 24 % 128 = 0 ∧ (0x00000100#32).toNat % 2 ^ 16 ≠ 0 ∧
    (0x00010001#32).toNat / 2 ^ 16 % 256 = 1 ∧ (0x00010001#32).toNat % 256 ≠ 0 ∧
    refusal? (stepWord .one 0x80010100#32) = some .lane ∧
    refusal? (stepWord .two 0x80010100#32) = none ∧
    refusal? (stepWord .two 0x00020001#32) = none := by decide
theorem test_witness_overlap :
    (live .two [.issue .secondContext (.txn32 0x00021234#32)]).wordLen = WordLen.two.toField ∧
    (live .two [.issue .secondContext (.txn32 0x00021234#32)]).refusedMark = none ∧
    Arrival.secondContext ≠ .serial ∧ Arrival.beforeCompletion ≠ .serial := by decide
theorem test_witness_step_runs :
    Running .two (live .two [serially (.txn32 0x00020510#32)]) ∧
    instr? (transcribe .two 0x00020510#32) = some (.encode [0x05#8, 0x10#8]) ∧
    (Instr.decode 0x00FF#16 1).wellFormed .one = true ∧
    (Instr.decode 0x0100#16 1).wellFormed .one = false := by decide
/-- The first two transactions of 95_test_vectors.md P1 with their results. -/
theorem test_witness_serial_run :
    Running .two (live .two ([.txn32 0x00020510#32, .txn32 0x80020500#32].map serially ++ [])) ∧
    [Presented.txn32 0x00020510#32, .txn32 0x80020500#32].map (fun p => instr? (readPresented .two p))
      = [.encode [0x05#8, 0x10#8], .decode 0x0500#16 2].map some ∧
    [Instr.encode [0x05#8, 0x10#8], .decode 0x0500#16 2].map (contract .two)
      = [.word (.w16 0x0510#16), .buffer [0x05#8, 0x00#8]].map some := by decide
/-- 95_test_vectors.md P3: a success, the fault, and a transaction behind it. -/
theorem test_witness_precise_fault :
    Running .two (live .two ([.txn32 0x0002ABCD#32].map serially
      ++ serially (.txn32 0x0001AB00#32) :: serially (.txn32 0x80021234#32) :: [])) ∧
    instr? (readPresented .two (.txn32 0x0002ABCD#32)) = some (.encode [0xAB#8, 0xCD#8]) ∧
    contract .two (.encode [0xAB#8, 0xCD#8]) = some (.word (.w16 0xABCD#16)) ∧
    instr? (readPresented .two (.txn32 0x0001AB00#32)) = some (.encode [0xAB#8]) ∧
    (Instr.encode [0xAB#8]).length ≠ WordLen.two.bytes := by decide
theorem test_witness_repeat :
    Live .two (live .two []) ∧
    (next? (exec (.encode [1#8, 2#8]) (live .two []))).map (·.fault) = some false := by decide
theorem test_witness_build : next? (build 2) = some (State.instantiate .two) := by decide
/-- A state with the invariant that takes a step: a halted block with a result delivered. -/
theorem test_witness_invariant :
    Inv { halted2 [.reset] with delivered := [.word (.w16 0xABCD#16)] } ∧
    (next? (step { halted2 [.reset] with delivered := [.word (.w16 0xABCD#16)] })).isSome := by
  refine ⟨⟨.two, rfl, ⟨rfl, by decide⟩, ?_⟩, by decide⟩
  intro r hr
  rw [List.mem_singleton.mp hr]
  rfl

end Sys2Proof.Tests
end

section
/-! PROOFS. The scope statements (00_scope.md R2 and R5): what the contract gives on a length that is
right or wrong, what a live instance then does, and what an illegal word length is answered. -/

namespace Sys2Proof.Machine

/-! ### The contract by length -/

/-- Off the instance's own length the contract gives nothing. -/
theorem contract_eq_none {W : WordLen} {i : Instr} (h : i.length ≠ W.bytes) :
    contract W i = none := by
  unfold contract
  split
  case h_5 => rfl
  all_goals exact absurd rfl h

/-- A source of `W` bytes encodes to the word the machine reads from it. -/
theorem contract_encode {W : WordLen} {src : Buffer} (h : src.length = W.bytes) :
    contract W (.encode src) = some (.word (readWord W src h)) := by
  cases W with
  | one =>
    obtain ⟨b, rfl⟩ := List.length_eq_one_iff.mp h
    rw [readWord_one, contract]
  | two =>
    obtain ⟨b, c, rfl⟩ := List.length_eq_two.mp h
    rw [readWord_two, contract]

/-- A word decodes to the bytes the machine leaves in a destination of `W` bytes, whatever the
destination held. -/
theorem contract_decode (W : WordLen) (data : BitVec 16) {dst : Buffer} (h : dst.length = W.bytes) :
    contract W (.decode data W.bytes) = some (.buffer (writeWord (wordOperand W data) dst)) := by
  cases W with
  | one => rw [wordOperand, writeWord_w8 _ h, WordLen.bytes, contract, lowByte]
  | two => rw [wordOperand, writeWord_w16 _ h, WordLen.bytes, contract, highByte, lowByte]

/-! ### A live instance -/

/-- On a live instance a transaction of the instance's own length delivers the contract's result. -/
theorem exec_live_delivers {W : WordLen} {i : Instr} {s : State} (hs : Live W s)
    (h : i.length = W.bytes) : ∃ r, contract W i = some r ∧ exec i s = .next (deliver s r) := by
  obtain ⟨hW, hf⟩ := hs
  cases i with
  | encode src => exact ⟨_, contract_encode h, (execEncode_live hW hf src).trans (dif_pos h)⟩
  | decode data n =>
    obtain rfl : n = W.bytes := h
    exact ⟨_, contract_decode W data (destination_length _),
      (execDecode_live hW hf data _).trans (if_pos rfl)⟩

/-- On a live instance a transaction of any other length takes `PRECOND_LEN`. -/
theorem exec_live_faults {W : WordLen} {i : Instr} {s : State} (hs : Live W s)
    (h : i.length ≠ W.bytes) : exec i s = .next (raisePrecondLen s (opOf i) i.length) := by
  obtain ⟨hW, hf⟩ := hs
  cases i with
  | encode src => exact (execEncode_live hW hf src).trans (dif_neg h)
  | decode data n => exact (execDecode_live hW hf data n).trans (if_neg h)

/-! ### An illegal word length -/

theorem wordLenOfBytes_eq_none {w : Nat} : wordLenOfBytes w = none ↔ w ≠ 1 ∧ w ≠ 2 := by
  simp [wordLenOfBytes, ite_eq_iff]

theorem wordLen?_eq_none {s : State} :
    wordLen? s = none ↔ s.wordLen ≠ 0b01#2 ∧ s.wordLen ≠ 0b10#2 := by
  simp [wordLen?, wordLenOfField, ite_eq_iff]

theorem build_illegal {w : Nat} (h : wordLenOfBytes w = none) : build w = .refused .config := by
  rw [build, h]

/-- An unmarked state whose configuration is illegal refuses the step before it looks at what is
issued. -/
theorem step_illegal {s : State} (hm : s.refusedMark = none) (h : wordLen? s = none) :
    step s = .refused .config := by
  rw [step, fetch, hm, h]

theorem whenRunning_illegal {s : State} (h : wordLen? s = none)
    (body : WordLen → Host.Outcome State Fault Refusal) :
    whenRunning s body = .refused .config := by
  rw [whenRunning, h]

/-- Both meanings check the configuration before anything else. -/
theorem exec_illegal {s : State} (h : wordLen? s = none) (i : Instr) :
    exec i s = .refused .config := by
  cases i with
  | encode src => exact whenRunning_illegal h _
  | decode data n => exact whenRunning_illegal h _

end Sys2Proof.Machine

namespace Sys2Proof.Scope

open Sys2Proof.Machine

/-- Settles O14: a transaction of the instance's own length delivers what the contract gives, and
one of any other length, where the contract gives nothing, enters the fault. -/
theorem execRefinesTheContract : Obligations.ExecRefinesTheContract := by
  intro W i s hs
  by_cases h : i.length = W.bytes
  · obtain ⟨r, hr, he⟩ := exec_live_delivers hs h
    rw [hr, he, deliver]
  · rw [contract_eq_none h, exec_live_faults hs h, raisePrecondLen, causePrecondLen]

/-- Settles O10: building, stepping and executing each look at the word length first. -/
theorem illegalWordLengthIsRefused : Obligations.IllegalWordLengthIsRefused := by
  refine ⟨fun w h1 h2 => ?_, fun s h1 h2 hm => ?_, fun s i h1 h2 => ?_⟩
  · exact build_illegal (wordLenOfBytes_eq_none.mpr ⟨h1, h2⟩)
  · exact step_illegal hm (wordLen?_eq_none.mpr ⟨h1, h2⟩)
  · exact exec_illegal (wordLen?_eq_none.mpr ⟨h1, h2⟩) i

end Sys2Proof.Scope
end

section
/-! PROOFS. The state's items (10_state.md R10 to R16): what a transaction and a step leave, down to
the result delivered and the record written, and the invariant of the state through each operation. -/

namespace Sys2Proof.Machine

/-! ### What a transaction and a step leave -/

/-- Whatever the contract gives has the instance's word length. -/
theorem contract_fits {W : WordLen} {i : Instr} {r : Result} (h : contract W i = some r) :
    r.fits W := by
  unfold contract at h
  split at h <;> cases h <;> rfl

/-- Only a live instance executes a transaction. -/
theorem exec_next_live {i : Instr} {s s' : State} (h : exec i s = .next s') :
    ∃ W : WordLen, Live W s := by
  obtain ⟨W, hW, hf, -⟩ := exec_next_cases h
  exact ⟨W, hW, hf⟩

/-- A transaction of a live instance delivers the contract's result, or records itself as the
faulting one. -/
theorem exec_live_next {W : WordLen} {i : Instr} {s s' : State} (hs : Live W s)
    (h : exec i s = .next s') :
    (∃ r, contract W i = some r ∧ s' = deliver s r) ∨
    (i.length ≠ W.bytes ∧ s' = raisePrecondLen s (opOf i) i.length) := by
  by_cases hl : i.length = W.bytes
  · obtain ⟨r, hr, he⟩ := exec_live_delivers hs hl
    rw [he] at h
    cases h
    exact .inl ⟨r, hr, rfl⟩
  · rw [exec_live_faults hs hl] at h
    cases h
    exact .inr ⟨hl, rfl⟩

/-- `CFG.WORD_LEN` is written by no transaction. -/
theorem exec_wordLen {i : Instr} {s s' : State} (h : exec i s = .next s') :
    s'.wordLen = s.wordLen := by
  obtain ⟨W, hs⟩ := exec_next_live h
  obtain ⟨r, -, rfl⟩ | ⟨-, rfl⟩ := exec_live_next hs h
  · exact deliver_wordLen s r
  · exact raisePrecondLen_wordLen s _ _

/-- `CFG.WORD_LEN` is written by no step. -/
theorem step_wordLen {s s' : State} (h : step s = .next s') : s'.wordLen = s.wordLen := by
  obtain ⟨-, W, -, ⟨-, rfl⟩ | ⟨rest, -, rfl⟩ | ⟨p, rest, i, -, -, -, he⟩⟩ := step_next_cases h
  · rfl
  · exact resetBlock_wordLen _
  · rw [exec_wordLen he]

/-- A halted instance has two steps: idle, and a reset. -/
theorem step_next_of_halted {s s' : State} (h : step s = .next s') (hf : s.fault = true) :
    (s.pending = [] ∧ s' = s) ∨
    ∃ rest, s.pending = .reset :: rest ∧ s' = resetBlock { s with pending := rest } := by
  obtain ⟨-, W, -, hidle | hreset | ⟨p, rest, i, -, hlive, -, -⟩⟩ := step_next_cases h
  · exact .inl hidle
  · exact .inr hreset
  · simp [hf] at hlive

/-- A step that sets `FAULT` is the fault entry of the transaction it took. -/
theorem step_sets_fault {s s' : State} (h : step s = .next s') (hf : s.fault = false)
    (hf' : s'.fault = true) :
    ∃ (W : WordLen) (txn : Presented) (rest : List Event) (i : Instr),
      s.wordLen = W.toField ∧ s.pending = serially txn :: rest ∧ readPresented W txn = .ok i ∧
      i.length ≠ W.bytes ∧ s' = raisePrecondLen { s with pending := rest } (opOf i) i.length := by
  obtain ⟨-, W, hW, ⟨-, rfl⟩ | ⟨rest, -, rfl⟩ | ⟨p, rest, i, hp, -, hi, he⟩⟩ := step_next_cases h
  · simp [hf] at hf'
  · simp at hf'
  · have hlive : Live W { s with pending := rest } := ⟨hW, hf⟩
    obtain ⟨r, -, rfl⟩ | ⟨hl, rfl⟩ := exec_live_next hlive he
    · simp [hf] at hf'
    · exact ⟨W, p, rest, i, hW, hp, hi, hl, rfl⟩

/-- A step that ends with `FAULT = 0` took a reset, or found `FAULT = 0` and left the record. -/
theorem step_leaves_fault_clear {s s' : State} (h : step s = .next s') (hf' : s'.fault = false) :
    s'.faultInfo = FaultInfo.clear ∨ (s.fault = false ∧ s'.faultInfo = s.faultInfo) := by
  obtain ⟨-, W, hW, ⟨-, rfl⟩ | ⟨rest, -, rfl⟩ | ⟨p, rest, i, -, hf, -, he⟩⟩ := step_next_cases h
  · exact .inr ⟨hf', rfl⟩
  · exact .inl rfl
  · have hlive : Live W { s with pending := rest } := ⟨hW, hf⟩
    obtain ⟨r, -, rfl⟩ | ⟨-, rfl⟩ := exec_live_next hlive he
    · exact .inr ⟨hf, rfl⟩
    · simp at hf'

/-! ### Building an instance -/

theorem build_one : build 1 = .next (State.instantiate .one) := rfl

theorem build_two : build 2 = .next (State.instantiate .two) := rfl

/-- What building answers is a new instance of a legal word length. -/
theorem build_next {w : Nat} {s : State} (h : build w = .next s) :
    ∃ W : WordLen, s = State.instantiate W := by
  unfold build at h
  split at h <;> cases h
  exact ⟨_, rfl⟩

/-! ### The invariant through each operation -/

/-- The invariant at the word length the configuration holds. -/
theorem inv_iff {s : State} {W : WordLen} (hW : s.wordLen = W.toField) :
    Inv s ↔ FaultRecordOk W s ∧ ∀ r ∈ s.delivered, r.fits W := by
  refine ⟨?_, fun h => ⟨W, hW, h⟩⟩
  rintro ⟨V, hV, h⟩
  obtain rfl : V = W := WordLen.toField_injective (hV.symm.trans hW)
  exact h

theorem inv_instantiate (W : WordLen) : Inv (State.instantiate W) :=
  ⟨W, rfl, rfl, fun _ h => by cases h⟩

/-- The invariant does not speak of what the consumer has issued. -/
theorem inv_pending {s : State} (h : Inv s) (rest : List Event) :
    Inv { s with pending := rest } := h

theorem inv_resetBlock {s : State} (h : Inv s) : Inv (resetBlock s) := by
  obtain ⟨W, hW, -, hd⟩ := h
  exact ⟨W, hW, rfl, hd⟩

theorem inv_deliver {s : State} {W : WordLen} {r : Result} (h : Inv s)
    (hW : s.wordLen = W.toField) (hr : r.fits W) : Inv (deliver s r) := by
  obtain ⟨hrec, hd⟩ := (inv_iff hW).mp h
  refine ⟨W, hW, hrec, fun q hq => ?_⟩
  rcases List.mem_append.mp hq with hq | hq
  · exact hd q hq
  · rwa [List.mem_singleton.mp hq]

theorem inv_raisePrecondLen {s : State} {W : WordLen} {n : Nat} (h : Inv s)
    (hW : s.wordLen = W.toField) (hn : n ≠ W.bytes) (op : BitVec 1) :
    Inv (raisePrecondLen s op n) :=
  ⟨W, hW, ⟨rfl, hn⟩, ((inv_iff hW).mp h).2⟩

/-- Every transaction keeps the invariant. -/
theorem inv_exec {i : Instr} {s s' : State} (h : Inv s) (he : exec i s = .next s') : Inv s' := by
  obtain ⟨W, hs⟩ := exec_next_live he
  obtain ⟨r, hr, rfl⟩ | ⟨hl, rfl⟩ := exec_live_next hs he
  · exact inv_deliver h hs.1 (contract_fits hr)
  · exact inv_raisePrecondLen h hs.1 hl _

end Sys2Proof.Machine

namespace Sys2Proof.StateItems

open Sys2Proof.Machine

/-- Settles O42: an idle step changes nothing, and each operation another step can make keeps the
invariant. -/
theorem everyStepKeepsTheInvariant : Obligations.EveryStepKeepsTheInvariant := by
  intro s s' hinv h
  obtain ⟨-, W, -, ⟨-, rfl⟩ | ⟨rest, -, rfl⟩ | ⟨p, rest, i, -, -, -, he⟩⟩ := step_next_cases h
  · exact hinv
  · exact inv_resetBlock (inv_pending hinv rest)
  · exact inv_exec (inv_pending hinv rest) he

/-- Settles O11: the two legal values are built, the other two are refused, and neither a
transaction nor a step nor a reset writes the field. -/
theorem wordLenIsReadOnly : Obligations.WordLenIsReadOnly := by
  refine ⟨⟨_, build_one, rfl⟩, ⟨_, build_two, rfl⟩, fun s hill hm => ?_,
    fun _ _ _ => exec_wordLen, fun _ _ => step_wordLen, resetBlock_wordLen⟩
  refine step_illegal hm (wordLen?_eq_none.mpr ?_)
  rcases hill with h | h <;> rw [h] <;> decide

/-- Settles O28: a step from 0 to 1 is a fault entry, a step from 1 is idle or a reset, and only a
live instance executes. -/
theorem faultLatchIsWrittenOnlyByEntryAndReset :
    Obligations.FaultLatchIsWrittenOnlyByEntryAndReset := by
  refine ⟨fun s s' h hf hf' => ?_, fun s s' h hf => ?_, fun i s s' h => ?_⟩
  · obtain ⟨W, txn, rest, i, hW, hp, hi, hl, -⟩ := step_sets_fault h hf hf'
    exact ⟨W, txn, rest, i, hW, hp, hi, hl⟩
  · obtain ⟨hp, rfl⟩ | ⟨rest, hp, rfl⟩ := step_next_of_halted h hf
    · exact .inl ⟨hp, hf⟩
    · exact .inr ⟨rest, hp, resetBlock_fault _⟩
  · obtain ⟨W, -, hf⟩ := exec_next_live h
    exact hf

/-- Settles O29: a halted instance that takes no reset is idle, a step that ends with the latch
clear took a reset or left the record, and fault entry records the transaction it took. -/
theorem faultInfoIsWrittenOnce : Obligations.FaultInfoIsWrittenOnce := by
  refine ⟨fun s s' h hf hno => ?_, fun s s' h hf' hclear => ?_, fun s s' h hf hf' => ?_⟩
  · obtain ⟨-, rfl⟩ | ⟨rest, hp, -⟩ := step_next_of_halted h hf
    · exact ⟨rfl, hf⟩
    · exact absurd hp (hno rest)
  · obtain hreset | ⟨hf, hkept⟩ := step_leaves_fault_clear h hf'
    · exact hreset
    · exact hkept.trans (hclear hf)
  · obtain ⟨W, txn, rest, i, hW, hp, hi, -, rfl⟩ := step_sets_fault h hf hf'
    exact ⟨rfl, W, txn, rest, i, hW, hp, hi, rfl, rfl⟩

/-- Settles O39: on any live instance of the word length a transaction of its own length delivers
the contract's result, and one of another length writes the same record. -/
theorem outputDependsOnOperandsAlone : Obligations.OutputDependsOnOperandsAlone := by
  intro W i s t hs ht
  by_cases hl : i.length = W.bytes
  · obtain ⟨r, hr, hes⟩ := exec_live_delivers hs hl
    obtain ⟨r', hr', het⟩ := exec_live_delivers ht hl
    obtain rfl : r = r' := Option.some.inj (hr.symm.trans hr')
    refine ⟨[r], _, _, hes, het, rfl, rfl, hs.2.trans ht.2.symm, fun hf => ?_⟩
    simp [hs.2] at hf
  · exact ⟨[], _, _, exec_live_faults hs hl, exec_live_faults ht hl, by simp, by simp, rfl,
      fun _ => rfl⟩

/-- Settles O7: `State.instantiate` writes the values of R16's table, and `State.reset` is its
value at one of the two word lengths. -/
theorem stateAfterResetHasTheListedValues : Obligations.StateAfterResetHasTheListedValues :=
  ⟨⟨_, rfl⟩, fun _ => ⟨rfl, rfl, rfl, rfl, rfl⟩⟩

/-- Settles O41: `State.reset` and whatever building answers are new instances. -/
theorem invariantHoldsAtReset : Obligations.InvariantHoldsAtReset := by
  refine ⟨inv_instantiate _, inv_instantiate, fun w s h => ?_⟩
  obtain ⟨W, rfl⟩ := build_next h
  exact inv_instantiate W

end Sys2Proof.StateItems
end

section
/-! PROOFS. The operands of a transaction and the order in which transactions are issued
(20_memory.md R19 to R27): a word is its bytes as numbers, what a transaction the contract gives a
result does, and what every transaction and every step leave as they were. -/

namespace Sys2Proof.Machine

/-! ### The bytes of a word as numbers -/

/-- A 2-byte word weighs its first byte by 256. -/
theorem twoBytes_toNat (b c : Byte) : (b ++ c : BitVec 16).toNat = 256 * b.toNat + c.toNat := by
  rw [BitVec.toNat_append, ← Nat.shiftLeft_add_eq_or_of_lt c.isLt, Nat.shiftLeft_eq]
  omega

theorem highByte_eq_ofNat (w : BitVec 16) : highByte w = BitVec.ofNat 8 (w.toNat / 2 ^ 8) := by
  rw [highByte, BitVec.extractLsb', Nat.shiftRight_eq_div_pow]

theorem lowByte_eq_ofNat (w : BitVec 16) : lowByte w = BitVec.ofNat 8 w.toNat := rfl

/-- Within the word's length a DECODE leaves the word's own bytes, whatever the destination held. -/
theorem writeWord_wordOperand_at {W : WordLen} (data : BitVec 16) {dst : Buffer} {j : Nat}
    (hdst : W.bytes ≤ dst.length) (hj : j < W.bytes) :
    (writeWord (wordOperand W data) dst)[j]? =
      some (BitVec.ofNat 8 (data.toNat / 2 ^ (8 * (W.bytes - 1 - j)))) := by
  cases W with
  | one =>
    obtain rfl : j = 0 := Nat.lt_one_iff.mp hj
    rw [wordOperand, writeWord, memWrite_at _ hdst, lowByte_eq_ofNat]
    simp [WordLen.bytes]
  | two =>
    have hlen : 2 ≤ dst.length := hdst
    rw [wordOperand, writeWord]
    obtain rfl | rfl : j = 0 ∨ j = 1 := Nat.le_one_iff_eq_zero_or_eq_one.mp (Nat.le_of_lt_succ hj)
    · rw [memWrite_elsewhere _ _ Nat.one_ne_zero, memWrite_at _ (by omega), highByte_eq_ofNat]
      simp [WordLen.bytes]
    · rw [memWrite_at _ (by rwa [memWrite_length]), lowByte_eq_ofNat]
      simp [WordLen.bytes]

/-! ### A transaction the contract gives a result -/

/-- The contract gives a result on the instance's own length only. -/
theorem length_eq_of_contract {W : WordLen} {i : Instr} {r : Result} (h : contract W i = some r) :
    i.length = W.bytes := by
  by_contra hl
  rw [contract_eq_none hl] at h
  cases h

theorem exec_of_contract {W : WordLen} {i : Instr} {r : Result} {s : State} (hs : Live W s)
    (h : contract W i = some r) : exec i s = .next (deliver s r) := by
  obtain ⟨q, hq, he⟩ := exec_live_delivers hs (length_eq_of_contract h)
  obtain rfl : q = r := Option.some.inj (hq.symm.trans h)
  exact he

/-- On a running instance the step that takes such a transaction delivers its result. -/
theorem step_of_contract {W : WordLen} {s : State} {p : Presented} {rest : List Event} {i : Instr}
    {r : Result} (hs : Running W s) (hp : s.pending = serially p :: rest)
    (hi : readPresented W p = .ok i) (hr : contract W i = some r) :
    step s = .next (deliver { s with pending := rest } r) := by
  obtain ⟨⟨hW, hf⟩, hm⟩ := hs
  have hlive : Live W { s with pending := rest } := ⟨hW, hf⟩
  rw [step_issue hm hW hf hp hi, exec_of_contract hlive hr]

/-- A result delivered earlier changes nothing of a later transaction but what stands before its
own result. -/
theorem exec_after_deliver {W : WordLen} (i : Instr) {s : State} (r : Result) (hs : Live W s) :
    ∃ s' out, exec i s = .next s' ∧ s'.delivered = s.delivered ++ out ∧
      exec i (deliver s r) = .next { s' with delivered := s.delivered ++ r :: out } := by
  have hs' : Live W (deliver s r) := hs
  by_cases hl : i.length = W.bytes
  · obtain ⟨q, hq, he⟩ := exec_live_delivers hs hl
    refine ⟨_, [q], he, deliver_delivered s q, ?_⟩
    rw [exec_of_contract hs' hq]
    simp [deliver]
  · exact ⟨_, [], exec_live_faults hs hl, by simp, exec_live_faults hs' hl⟩

/-! ### What every transaction and every step leave -/

/-- A transaction leaves the refused mark and the consumer's list, and adds at most one result. -/
theorem exec_frame {i : Instr} {s s' : State} (h : exec i s = .next s') :
    s'.refusedMark = s.refusedMark ∧ s'.pending = s.pending ∧
      (s'.delivered = s.delivered ∨ ∃ r, s'.delivered = s.delivered ++ [r]) := by
  obtain ⟨W, hs⟩ := exec_next_live h
  obtain ⟨r, -, rfl⟩ | ⟨-, rfl⟩ := exec_live_next hs h
  · exact ⟨rfl, rfl, .inr ⟨r, rfl⟩⟩
  · exact ⟨rfl, rfl, .inl rfl⟩

/-- An issue out of turn is refused before the halted latch is looked at. -/
theorem step_overlap {s : State} {W : WordLen} {a : Arrival} {p : Presented} {rest : List Event}
    (hm : s.refusedMark = none) (hW : s.wordLen = W.toField) (hp : s.pending = .issue a p :: rest)
    (ha : a ≠ .serial) : step s = .refused .overlap := by
  simp [step, fetch, hm, wordLen?_eq_some.mpr hW, hp, takeIssue, ha]

theorem advance_of_refused {s : State} {r : Refusal} (h : step s = .refused r) :
    advance s = markRefused s r := by
  rw [advance, h]

end Sys2Proof.Machine

namespace Sys2Proof.Memory

open Sys2Proof.Machine

/-- Settles O36, by induction on the list of transactions: the first step delivers the first result
and leaves a running instance with one issue fewer, on which the rest of the run is the same
statement. -/
theorem serialRunDeliversInOrder : Obligations.SerialRunDeliversInOrder := by
  intro W txns
  induction txns with
  | nil =>
    intro is rs s rest hs hp hi hr
    obtain rfl : is = [] := List.map_eq_nil_iff.mp hi.symm
    obtain rfl : rs = [] := List.map_eq_nil_iff.mp hr.symm
    obtain rfl : s.pending = rest := hp
    simp [run]
  | cons txn txns ih =>
    intro is rs s rest hs hp hi hr
    obtain ⟨i, is, rfl, hi₀, hi⟩ := List.map_eq_cons_iff.mp hi.symm
    obtain ⟨r, rs, rfl, hr₀, hr⟩ := List.map_eq_cons_iff.mp hr.symm
    have hstep := step_of_contract (rest := txns.map serially ++ rest) hs hp hi₀.symm hr₀.symm
    have hs₁ : Running W (deliver { s with pending := txns.map serially ++ rest } r) := hs
    rw [List.length_cons, run_succ_next hstep, ih is rs _ rest hs₁ rfl hi.symm hr.symm]
    simp [deliver]

/-- Settles O23: the writes keep the length and everything past the word, and the bytes they leave
within it are the operand's. -/
theorem decodeWritesOnlyItsWord : Obligations.DecodeWritesOnlyItsWord := by
  intro W data dst hdst
  refine ⟨writeWord_length _ dst, fun j hj => ?_, fun dst' hdst' j hj => ?_⟩
  · exact writeWord_elsewhere _ dst (by rwa [wordOperand_len])
  · have hbyte := writeWord_wordOperand_at data hdst hj
    exact ⟨hbyte.trans (writeWord_wordOperand_at data hdst' hj).symm, hbyte⟩

/-- Settles O16: the word the contract gives is the two bytes put together, the first one high. -/
theorem twoByteWordsAreBigEndian : Obligations.TwoByteWordsAreBigEndian := fun _ b0 b1 hs =>
  ⟨b0 ++ b1, exec_of_contract hs rfl, highByte_twoBytes b0 b1, lowByte_twoBytes b0 b1,
    twoBytes_toNat b0 b1⟩

/-- Settles O17: one transaction of the 2-byte instance, two of the 1-byte instance, the second of
them on the live instance the first one leaves. -/
theorem oneByteWordsComeMostSignificantFirst :
    Obligations.OneByteWordsComeMostSignificantFirst := by
  intro s t b0 b1 hs ht
  refine ⟨exec_of_contract hs rfl, _, exec_of_contract ht rfl, ?_⟩
  have ht₁ : Live .one (deliver t (.word (.w8 b0))) := ht
  rw [exec_of_contract ht₁ rfl]
  simp [deliver]

/-- Settles O38: an idle step changes nothing, a reset takes the head of the list, and so does a
transaction, which adds at most its result. -/
theorem stepFrame : Obligations.StepFrame := by
  intro s s' h
  refine ⟨step_wordLen h, ?_⟩
  obtain ⟨-, W, -, ⟨hp, rfl⟩ | ⟨rest, hp, rfl⟩ | ⟨p, rest, i, hp, -, -, he⟩⟩ := step_next_cases h
  · exact ⟨rfl, .inl rfl, .inl ⟨rfl, hp⟩⟩
  · exact ⟨rfl, .inl rfl, .inr ⟨_, hp⟩⟩
  · obtain ⟨hmark, hpend, hdel⟩ := exec_frame he
    exact ⟨hmark, hdel, .inr ⟨_, by rw [hp, hpend]⟩⟩

/-- Settles O40: a success only delivers, so the instance is live after it, the contract gives the
same transaction the same result, and any other does what it would have done before. -/
theorem repeatingOrSkippingIsUnseen : Obligations.RepeatingOrSkippingIsUnseen := by
  intro W i j s s₁ hs h hf
  obtain ⟨r, hr, rfl⟩ | ⟨-, rfl⟩ := exec_live_next hs h
  · refine ⟨r, rfl, ?_, exec_after_deliver j r hs⟩
    have hs₁ : Live W (deliver s r) := hs
    rw [exec_of_contract hs₁ hr]
    simp [deliver]
  · simp at hf

/-- Settles O34: the check for overlap comes before the one for the halted latch, and a refusal
writes the refused mark alone. -/
theorem overlappingIssueIsRefused : Obligations.OverlappingIssueIsRefused := by
  intro W s arrival txn rest hW hm hp ha
  have hstep := step_overlap hm hW hp ha
  exact ⟨hstep, advance_of_refused hstep⟩

end Sys2Proof.Memory
end

section
/-! PROOFS. The transaction word (30_encoding.md R31 to R41): its fields as numbers, which words have
a lane that must be zero, what the lanes carry of a source, and the round trip between a TXN32 and
the transaction it stands for; then the step that takes a TXN32 and the assembler. -/

namespace Sys2Proof

/-! ### The fields as numbers -/

theorem txnOp_toNat (t : Txn32) : (txnOp t).toNat = t.toNat / 2 ^ 31 := by
  rw [txnOp, BitVec.extractLsb'_toNat, Nat.shiftRight_eq_div_pow]
  exact Nat.mod_eq_of_lt (by omega)

theorem txnRsv_toNat (t : Txn32) : (txnRsv t).toNat = t.toNat / 2 ^ 24 % 128 := by
  rw [txnRsv, BitVec.extractLsb'_toNat, Nat.shiftRight_eq_div_pow]

theorem txnLen_toNat (t : Txn32) : (txnLen t).toNat = t.toNat / 2 ^ 16 % 256 := by
  rw [txnLen, BitVec.extractLsb'_toNat, Nat.shiftRight_eq_div_pow]

theorem txnData_toNat (t : Txn32) : (txnData t).toNat = t.toNat % 2 ^ 16 := by
  rw [txnData, BitVec.extractLsb'_toNat, Nat.shiftRight_zero]

theorem txnB0_toNat (t : Txn32) : (txnB0 t).toNat = t.toNat / 2 ^ 8 % 256 := by
  rw [txnB0, BitVec.extractLsb'_toNat, Nat.shiftRight_eq_div_pow]

theorem txnB1_toNat (t : Txn32) : (txnB1 t).toNat = t.toNat % 256 := by
  rw [txnB1, BitVec.extractLsb'_toNat, Nat.shiftRight_zero]

theorem txnOp_eq_zero_iff {t : Txn32} : txnOp t = 0 ↔ t.toNat / 2 ^ 31 = 0 := by
  rw [← BitVec.toNat_inj, txnOp_toNat]
  exact Iff.rfl

theorem txnOp_eq_one_iff {t : Txn32} : txnOp t = 1 ↔ t.toNat / 2 ^ 31 = 1 := by
  rw [← BitVec.toNat_inj, txnOp_toNat]
  exact Iff.rfl

theorem txnRsv_eq_zero_iff {t : Txn32} : txnRsv t = 0 ↔ t.toNat / 2 ^ 24 % 128 = 0 := by
  rw [← BitVec.toNat_inj, txnRsv_toNat]
  exact Iff.rfl

/-- A set bit among 30..24 makes the reserved field nonzero. -/
theorem txnRsv_ne_zero_of_bit {t : Txn32} {k : Nat} (h24 : 24 ≤ k) (h30 : k ≤ 30)
    (hk : t.getLsbD k = true) : txnRsv t ≠ 0 := by
  intro h
  have hbit : (txnRsv t).getLsbD (k - 24) = t.getLsbD k := by
    simp [txnRsv, show k - 24 < 7 by omega, show 24 + (k - 24) = k by omega]
  rw [h, hk] at hbit
  simp at hbit

/-! ### The lanes that must be zero -/

theorem encodeLaneViolation_eq_true {t : Txn32} :
    encodeLaneViolation t = true ↔
      ((txnLen t).toNat = 0 ∧ ((txnB0 t).toNat ≠ 0 ∨ (txnB1 t).toNat ≠ 0)) ∨
      ((txnLen t).toNat = 1 ∧ (txnB1 t).toNat ≠ 0) := by
  simp [encodeLaneViolation, ← BitVec.toNat_inj]

/-- An ENCODE's TXN32 is admitted when each lane its length does not reach is zero. -/
theorem encodeLaneViolation_eq_false {t : Txn32} :
    encodeLaneViolation t = false ↔
      ((txnLen t).toNat ≤ 0 → txnB0 t = 0) ∧ ((txnLen t).toNat ≤ 1 → txnB1 t = 0) := by
  rw [← Bool.not_eq_true, encodeLaneViolation_eq_true, ← BitVec.toNat_inj, ← BitVec.toNat_inj]
  rcases Nat.lt_trichotomy (txnLen t).toNat 1 with h | h | h
  · simp [Nat.lt_one_iff.mp h]
  · simp [h]
  · simp [show (txnLen t).toNat ≠ 0 by omega, show (txnLen t).toNat ≠ 1 by omega, h]

theorem decodeLaneViolation_eq_true {W : WordLen} {t : Txn32} :
    decodeLaneViolation W t = true ↔ W = .one ∧ (txnB0 t).toNat ≠ 0 := by
  simp [decodeLaneViolation, ← BitVec.toNat_inj]

theorem WordLen.bytes_le_two (W : WordLen) : W.bytes ≤ 2 := by cases W <;> decide

/-- An operand fits when it is a number of `8*W` bits. -/
theorem fitsWord_iff {W : WordLen} {data : BitVec 16} :
    fitsWord W data = true ↔ data.toNat < 2 ^ (8 * W.bytes) := by
  cases W with
  | one => exact decide_eq_true_iff
  | two => exact iff_of_true rfl data.isLt

/-- A DECODE's TXN32 is admitted when its data field is a word of the instance. -/
theorem decodeLaneViolation_eq_not_fitsWord (W : WordLen) (t : Txn32) :
    decodeLaneViolation W t = !fitsWord W (txnData t) := by
  cases W with
  | one =>
    rw [Bool.eq_iff_iff, decodeLaneViolation_eq_true, txnB0_toNat]
    simp only [fitsWord, txnData_toNat, Bool.not_eq_true', decide_eq_false_iff_not, true_and]
    omega
  | two => simp [decodeLaneViolation, fitsWord]

/-- The data field of an admitted DECODE is the low `8*W` bits of the word. -/
theorem txnData_toNat_of_admitted {W : WordLen} {t : Txn32} (h : decodeLaneViolation W t = false) :
    (txnData t).toNat = t.toNat % 2 ^ (8 * W.bytes) := by
  rw [decodeLaneViolation_eq_not_fitsWord, Bool.not_eq_false', fitsWord_iff, txnData_toNat] at h
  have hdvd : 2 ^ (8 * W.bytes) ∣ 2 ^ 16 :=
    Nat.pow_dvd_pow 2 (Nat.mul_le_mul_left 8 W.bytes_le_two)
  rw [txnData_toNat, ← Nat.mod_mod_of_dvd t.toNat hdvd, Nat.mod_eq_of_lt h]

/-! ### Transcription, field by field -/

theorem transcribe_reserved {W : WordLen} {t : Txn32} (hr : txnRsv t ≠ 0) :
    transcribe W t = .error .reserved := if_pos hr

theorem transcribe_op_zero {W : WordLen} {t : Txn32} (hr : txnRsv t = 0) (ho : txnOp t = 0) :
    transcribe W t =
      if encodeLaneViolation t then .error .lane else .ok (.encode (txnSource t)) := by
  rw [transcribe, if_neg (not_not_intro hr), if_pos ho]

theorem transcribe_op_one {W : WordLen} {t : Txn32} (hr : txnRsv t = 0) (ho : txnOp t = 1) :
    transcribe W t =
      if decodeLaneViolation W t then .error .lane
      else .ok (.decode (txnData t) (txnLen t).toNat) := by
  rw [transcribe, if_neg (not_not_intro hr), if_neg (by rw [ho]; decide)]

/-- Of a TXN32 with no reserved bit set, a lane is the only thing that can be refused. -/
theorem transcribe_eq_lane_iff {W : WordLen} {t : Txn32} (hr : txnRsv t = 0) :
    transcribe W t = .error .lane ↔
      (txnOp t = 0 ∧ encodeLaneViolation t = true) ∨
      (txnOp t = 1 ∧ decodeLaneViolation W t = true) := by
  obtain ⟨h, -⟩ | ⟨-, ho, hl, ht⟩ | ⟨-, ho, hl, ht⟩ | ⟨-, ho, hl, ht⟩ | ⟨-, ho, hl, ht⟩ :=
    transcribe_cases W t
  · exact absurd hr h
  all_goals simp [ho, hl, ht]

/-! ### A source and its lanes -/

/-- A byte the lanes carry, where the length reaches it. -/
theorem txnSource_lane? (t : Txn32) {i : Nat} (hi : i < [txnB0 t, txnB1 t].length) :
    (txnSource t)[i]? =
      if (txnLen t).toNat ≤ i then none else some [txnB0 t, txnB1 t][i] := by
  split
  · rw [List.getElem?_eq_none_iff, txnSource_length]
    assumption
  · have hlen : i < ([txnB0 t, txnB1 t].take (txnLen t).toNat).length := by
      rw [List.length_take]
      omega
    rw [txnSource, List.getElem?_append_left hlen, List.getElem?_take_of_lt (by omega),
      List.getElem?_eq_getElem hi]

theorem txnSource_lane {t : Txn32} {i : Nat} {b : Byte} (hi : i < [txnB0 t, txnB1 t].length)
    (hb : (txnSource t)[i]? = some b) : b = [txnB0 t, txnB1 t][i] := by
  rw [txnSource_lane? t hi] at hb
  split at hb <;> cases hb
  rfl

theorem sourceLane_of_length_le {src : Buffer} {i : Nat} (h : src.length ≤ i) :
    sourceLane src i = 0 := by
  rw [sourceLane, List.getElem?_eq_none h, Option.getD_none]

/-- The first two bytes of a source are its lanes, as far as its length reaches. -/
theorem take_two_eq_lanes (src : Buffer) :
    src.take 2 = [sourceLane src 0, sourceLane src 1].take src.length := by
  rcases src with _ | ⟨b, _ | ⟨c, src⟩⟩ <;> simp [sourceLane]

/-- The lanes of the source a TXN32 stands for are the word's own, when those its length does not
reach are zero. -/
theorem sourceLane_txnSource {t : Txn32} {i : Nat} (hi : i < [txnB0 t, txnB1 t].length)
    (h : (txnLen t).toNat ≤ i → [txnB0 t, txnB1 t][i] = 0) :
    sourceLane (txnSource t) i = [txnB0 t, txnB1 t][i] := by
  rw [sourceLane, txnSource_lane? t hi]
  split
  · exact (h ‹_›).symm
  · rfl

/-! ### The round trip -/

/-- The length field states a length of at most 255. -/
theorem lenField_toNat {n : Nat} (h : n < 256) : (BitVec.ofNat 8 n).toNat = n := by
  rw [BitVec.toNat_ofNat, Nat.mod_eq_of_lt h]

theorem fitsTxn32_iff {W : WordLen} {i : Instr} :
    i.fitsTxn32 W = true ↔ i.wellFormed W = true ∧ i.length < 256 := by
  simp [Instr.fitsTxn32]

/-- The fields of an ENCODE's TXN32. -/
theorem encodeTxn32_encode_fields {src : Buffer} (h : src.length < 256) :
    txnOp (encodeTxn32 (.encode src)) = 0 ∧ txnRsv (encodeTxn32 (.encode src)) = 0 ∧
    (txnLen (encodeTxn32 (.encode src))).toNat = src.length ∧
    txnB0 (encodeTxn32 (.encode src)) = sourceLane src 0 ∧
    txnB1 (encodeTxn32 (.encode src)) = sourceLane src 1 := by
  simp [encodeTxn32, lenField_toNat h]

/-- The fields of a DECODE's TXN32. -/
theorem encodeTxn32_decode_fields (data : BitVec 16) {n : Nat} (h : n < 256) :
    txnOp (encodeTxn32 (.decode data n)) = 1 ∧ txnRsv (encodeTxn32 (.decode data n)) = 0 ∧
    (txnLen (encodeTxn32 (.decode data n))).toNat = n ∧
    txnData (encodeTxn32 (.decode data n)) = data := by
  simp [encodeTxn32, lenField_toNat h]

/-- An ENCODE's TXN32 is admitted, and stands for an ENCODE of the same length and lanes. -/
theorem transcribe_encodeTxn32_encode (W : WordLen) {src : Buffer} (h : src.length < 256) :
    ∃ src', transcribe W (encodeTxn32 (.encode src)) = .ok (.encode src') ∧
      src'.length = src.length ∧ src'.take 2 = src.take 2 := by
  obtain ⟨ho, hr, hlen, h0, h1⟩ := encodeTxn32_encode_fields h
  have hzero : encodeLaneViolation (encodeTxn32 (.encode src)) = false := by
    rw [encodeLaneViolation_eq_false, hlen, h0, h1]
    exact ⟨sourceLane_of_length_le, sourceLane_of_length_le⟩
  obtain ⟨hz0, hz1⟩ := encodeLaneViolation_eq_false.mp hzero
  have hlen' : (txnSource (encodeTxn32 (.encode src))).length = src.length := by
    rw [txnSource_length, hlen]
  refine ⟨txnSource (encodeTxn32 (.encode src)), ?_, hlen', ?_⟩
  · rw [transcribe_op_zero hr ho, hzero, if_neg Bool.false_ne_true]
  · have hl0 : sourceLane (txnSource (encodeTxn32 (.encode src))) 0 = sourceLane src 0 :=
      (sourceLane_txnSource Nat.two_pos hz0).trans h0
    have hl1 : sourceLane (txnSource (encodeTxn32 (.encode src))) 1 = sourceLane src 1 :=
      (sourceLane_txnSource Nat.one_lt_two hz1).trans h1
    rw [take_two_eq_lanes, take_two_eq_lanes src, hlen', hl0, hl1]

/-- A DECODE's TXN32 stands for that DECODE. -/
theorem transcribe_encodeTxn32_decode {W : WordLen} {data : BitVec 16} {n : Nat}
    (hw : fitsWord W data = true) (hn : n < 256) :
    transcribe W (encodeTxn32 (.decode data n)) = .ok (.decode data n) := by
  obtain ⟨ho, hr, hlen, hdata⟩ := encodeTxn32_decode_fields data hn
  rw [transcribe_op_one hr ho, decodeLaneViolation_eq_not_fitsWord, hlen, hdata, hw]
  rfl

/-- Buffers of at most two bytes that agree in their first two bytes are the same. -/
theorem eq_of_take_two_eq {src src' : Buffer} (hlen : src.length ≤ 2) (hlen' : src'.length ≤ 2)
    (h : src.take 2 = src'.take 2) : src = src' := by
  rwa [List.take_of_length_le hlen, List.take_of_length_le hlen'] at h

/-- Packing the source a TXN32 stands for gives the word back. -/
theorem encodeTxn32_txnSource {t : Txn32} (hr : txnRsv t = 0) (ho : txnOp t = 0)
    (hl : encodeLaneViolation t = false) : encodeTxn32 (.encode (txnSource t)) = t := by
  obtain ⟨hz0, hz1⟩ := encodeLaneViolation_eq_false.mp hl
  have hl0 : sourceLane (txnSource t) 0 = txnB0 t := sourceLane_txnSource Nat.two_pos hz0
  have hl1 : sourceLane (txnSource t) 1 = txnB1 t := sourceLane_txnSource Nat.one_lt_two hz1
  calc encodeTxn32 (.encode (txnSource t))
      = packTxn32 0 (txnLen t) (txnB0 t ++ txnB1 t) := by
        rw [encodeTxn32, txnSource_length, hl0, hl1, BitVec.ofNat_toNat, BitVec.setWidth_eq]
    _ = packTxn32 (txnOp t) (txnLen t) (txnData t) := by rw [ho, txnData_lanes]
    _ = t := packTxn32_fields hr

/-- Packing the operands a DECODE's TXN32 stands for gives the word back. -/
theorem encodeTxn32_decode_of_fields {t : Txn32} (hr : txnRsv t = 0) (ho : txnOp t = 1) :
    encodeTxn32 (.decode (txnData t) (txnLen t).toNat) = t := by
  rw [encodeTxn32, BitVec.ofNat_toNat, BitVec.setWidth_eq, ← ho, packTxn32_fields hr]

/-- What an admitted TXN32 stands for has the word's own operation and length. -/
theorem transcribe_ok_fields {W : WordLen} {t : Txn32} {i : Instr} (h : transcribe W t = .ok i) :
    Machine.opOf i = txnOp t ∧ i.length = (txnLen t).toNat := by
  obtain ⟨-, ht⟩ | ⟨-, -, -, ht⟩ | ⟨-, ho, -, ht⟩ | ⟨-, -, -, ht⟩ | ⟨-, ho, -, ht⟩ :=
    transcribe_cases W t <;> rw [ht] at h <;> cases h
  · exact ⟨ho.symm, txnSource_length t⟩
  · exact ⟨ho.symm, rfl⟩

/-! ### The assembler -/

theorem assemble_encode (W : WordLen) {listed : Buffer} (h : listed.length < 256) :
    assemble W (.encode listed) = some (encodeTxn32 (.encode listed)) :=
  if_pos (decide_eq_true h)

theorem assemble_decode {W : WordLen} {w : BitVec 16} {n : Nat} (hw : fitsWord W w = true)
    (hn : n < 256) : assemble W (.decode w n) = some (encodeTxn32 (.decode w n)) :=
  if_pos (by simp [AsmLine.wellFormed, hw, hn])

theorem assemble_encz (W : WordLen) :
    assemble W .encz = assemble W (.encode (List.replicate W.bytes 0)) := by
  cases W <;> rfl

theorem assemble_word (W : WordLen) (t : Txn32) : assemble W (.word t) = some t := rfl

/-! ### Words of the bus -/

/-- A right-aligned bus word is the word as a number. -/
theorem rightAligned_toNat (w : BusWord) : w.rightAligned.toNat = w.toNat := by
  cases w with
  | w8 b => exact BitVec.toNat_setWidth_of_le (by decide)
  | w16 w => rfl

theorem fitsWord_rightAligned (w : BusWord) : fitsWord w.len w.rightAligned = true := by
  cases w with
  | w8 b =>
    rw [fitsWord_iff, rightAligned_toNat]
    exact b.isLt
  | w16 w => rfl

end Sys2Proof

namespace Sys2Proof.Machine

/-! ### The step that takes a presented transaction -/

/-- A live instance answers every transaction with a next state. -/
theorem exec_live_exists_next {W : WordLen} (i : Instr) {s : State} (hs : Live W s) :
    ∃ s', exec i s = .next s' := by
  by_cases hl : i.length = W.bytes
  · obtain ⟨r, -, he⟩ := exec_live_delivers hs hl
    exact ⟨_, he⟩
  · exact ⟨_, exec_live_faults hs hl⟩

/-- On a running instance a presentation that spells a transaction is executed. -/
theorem step_admitted {W : WordLen} {s : State} {p : Presented} {rest : List Event} {i : Instr}
    (hs : Running W s) (hp : s.pending = serially p :: rest) (hi : readPresented W p = .ok i) :
    step s = exec i { s with pending := rest } := by
  obtain ⟨⟨hW, hf⟩, hm⟩ := hs
  exact step_issue hm hW hf hp hi

/-- On a running instance a presentation that spells no transaction is refused. -/
theorem step_rejected {W : WordLen} {s : State} {p : Presented} {rest : List Event} {e : Reject}
    (hs : Running W s) (hp : s.pending = serially p :: rest)
    (he : readPresented W p = .error e) : step s = .refused (refusalOf e) := by
  obtain ⟨⟨hW, hf⟩, hm⟩ := hs
  simp [step, fetch, hm, wordLen?_eq_some.mpr hW, hp, serially, takeIssue, halted, hf, he]

/-- On a running instance an issue in its turn is refused only for what it spells. -/
theorem step_refused_iff {W : WordLen} {s : State} {p : Presented} {rest : List Event}
    {r : Refusal} (hs : Running W s) (hp : s.pending = serially p :: rest) :
    step s = .refused r ↔ ∃ e, readPresented W p = .error e ∧ refusalOf e = r := by
  cases hread : readPresented W p with
  | error e => simp [step_rejected hs hp hread]
  | ok i =>
    have hlive : Live W { s with pending := rest } := hs.1
    obtain ⟨s', he⟩ := exec_live_exists_next i hlive
    rw [step_admitted hs hp hread, he]
    simp

theorem refusalOf_eq_lane_iff {e : Reject} : refusalOf e = .lane ↔ e = .lane := by
  cases e <;> decide

/-- On a running instance a TXN32 is refused as a lane when its transcription is. -/
theorem step_eq_refused_lane_iff {W : WordLen} {s : State} {t : Txn32} {rest : List Event}
    (hs : Running W s) (hp : s.pending = serially (.txn32 t) :: rest) :
    step s = .refused .lane ↔ transcribe W t = .error .lane := by
  simp [step_refused_iff hs hp, readPresented, refusalOf_eq_lane_iff]

/-- An ENCODE longer than any word takes the fault without its bytes being looked at. -/
theorem exec_encode_of_long {src : Buffer} (h : 2 < src.length) (s : State) :
    exec (.encode src) s = whenRunning s fun _ => .next (raisePrecondLen s opEncode src.length) := by
  have hne (W : WordLen) : src.length ≠ W.bytes := by
    have := W.bytes_le_two
    omega
  rw [exec, execEncode]
  congr 1
  funext W
  exact dif_neg (hne W)

end Sys2Proof.Machine

namespace Sys2Proof.Encoding

open Sys2Proof.Machine

/-- Settles O3: the fields of the TXN32 read back as they were packed; the lanes give a source's
first two bytes, which are the whole of one no longer than that. -/
theorem transcribeOfEncodeGivesTheInstruction :
    Obligations.TranscribeOfEncodeGivesTheInstruction := by
  intro W i hfits
  obtain ⟨hw, hlen⟩ := fitsTxn32_iff.mp hfits
  cases i with
  | decode data n => exact transcribe_encodeTxn32_decode hw hlen
  | encode src =>
    have hround := transcribe_encodeTxn32_encode W hlen
    refine ⟨fun hshort => ?_, hround⟩
    obtain ⟨src', ht, hlen', htake⟩ := hround
    rw [ht, eq_of_take_two_eq (hlen'.trans_le hshort) hshort htake]

/-- Settles O4: an admitted word has no reserved bit and no lane set that its transaction does not
carry, so it is its fields packed again. -/
theorem encodeOfTranscribeGivesTheWord : Obligations.EncodeOfTranscribeGivesTheWord := by
  intro W t i h
  obtain ⟨-, ht⟩ | ⟨-, -, -, ht⟩ | ⟨hr, ho, hl, ht⟩ | ⟨-, -, -, ht⟩ | ⟨hr, ho, hl, ht⟩ :=
    transcribe_cases W t <;> rw [ht] at h <;> cases h
  · refine ⟨fitsTxn32_iff.mpr ⟨rfl, ?_⟩, encodeTxn32_txnSource hr ho hl⟩
    exact (txnSource_length t).trans_lt (txnLen t).isLt
  · refine ⟨fitsTxn32_iff.mpr ⟨?_, (txnLen t).isLt⟩, encodeTxn32_decode_of_fields hr ho⟩
    rwa [decodeLaneViolation_eq_not_fitsWord, Bool.not_eq_false'] at hl

/-- Settles O2: the fields are the numbers read by arithmetic, and transcription answers by them. -/
theorem transcriptionIsTotalByFields : Obligations.TranscriptionIsTotalByFields := by
  intro W t
  rw [ne_eq, ← txnRsv_eq_zero_iff, ← txnOp_eq_zero_iff, ← txnOp_eq_one_iff, ← txnLen_toNat,
    ← txnB0_toNat, ← txnB1_toNat]
  refine ⟨transcribe_reserved, fun hr ho => ?_, fun hr ho => ?_⟩
  · rw [transcribe_op_zero hr ho]
    by_cases hl : encodeLaneViolation t = true
    · rw [if_pos (encodeLaneViolation_eq_true.mp hl), if_pos hl]
    · rw [if_neg (mt encodeLaneViolation_eq_true.mpr hl), if_neg hl]
      refine ⟨_, rfl, txnSource_length t, fun b hb => ?_, fun b hb => ?_⟩
      · exact congrArg BitVec.toNat (txnSource_lane Nat.two_pos hb)
      · exact congrArg BitVec.toNat (txnSource_lane Nat.one_lt_two hb)
  · rw [transcribe_op_one hr ho]
    by_cases hl : decodeLaneViolation W t = true
    · rw [if_pos (decodeLaneViolation_eq_true.mp hl), if_pos hl]
    · rw [if_neg (mt decodeLaneViolation_eq_true.mpr hl), if_neg hl]
      exact ⟨_, rfl, txnData_toNat_of_admitted (Bool.not_eq_true _ ▸ hl)⟩

/-- Settles O5: buffers of at most two bytes are equal, and a longer one takes the fault whatever
its bytes are. -/
theorem uncarriedBytesNeverMatter : Obligations.UncarriedBytesNeverMatter := by
  intro src src' s hlen htake
  rcases Nat.lt_or_ge 2 src.length with hlong | hshort
  · rw [exec_encode_of_long hlong, exec_encode_of_long (hlen ▸ hlong), hlen]
  · rw [eq_of_take_two_eq hshort (hlen ▸ hshort) htake]

/-- Settles O6: each form is the packing of its fields, the lanes past a short list zero, and a
list longer than two bytes is no word of any instance. -/
theorem assemblerForms : Obligations.AssemblerForms := by
  intro W
  refine ⟨fun listed hlen => ?_, fun w n hw hn => ?_, ?_, assemble_word W⟩
  · obtain ⟨ho, hr, hl, h0, h1⟩ := encodeTxn32_encode_fields hlen
    refine ⟨_, assemble_encode W hlen, ho, hr, hl, h0, h1, fun hlong => ?_⟩
    obtain ⟨src, ht, hsrc, -⟩ := transcribe_encodeTxn32_encode W hlen
    refine ⟨src, ht, fun s hs => ?_⟩
    have hne : (Instr.encode src).length ≠ W.bytes := by
      have := W.bytes_le_two
      rw [Instr.length, hsrc]
      omega
    rw [exec_live_faults hs hne, Instr.length, hsrc]
    rfl
  · subst hw
    exact ⟨_, assemble_decode (fitsWord_rightAligned w) hn, encodeTxn32_decode_fields _ hn⟩
  · rw [assemble_encz]
    cases W <;> rfl

/-- Settles O15: a word is delivered right-aligned, the bytes of a DECODE are put back into their
two lanes, and fault entry delivers nothing. -/
theorem resultWordLayout : Obligations.ResultWordLayout := by
  refine ⟨fun W s src hs hlen => ?_, fun W s data hs => ?_, fun W i s s' hs hl h => ?_⟩
  · exact ⟨_, exec_of_contract hs (contract_encode hlen), readWord_len W src hlen,
      rightAligned_toNat _⟩
  · cases W with
    | one => exact ⟨_, exec_of_contract hs rfl, highByte_twoBytes _ _, lowByte_twoBytes _ _⟩
    | two => exact ⟨_, exec_of_contract hs rfl, highByte_twoBytes _ _, lowByte_twoBytes _ _⟩
  · rw [exec_live_faults hs hl] at h
    cases h
    rfl

/-- Settles O26: the transaction a word stands for has the word's operation and length, and fault
entry records them. -/
theorem faultRecordIsReadFromTheWord : Obligations.FaultRecordIsReadFromTheWord := by
  intro W s t rest i hs hp ht hne
  obtain ⟨hop, hlen⟩ := transcribe_ok_fields ht
  rw [txnLen_toNat] at hlen
  have hlive : Live W { s with pending := rest } := hs.1
  refine ⟨_, (step_admitted hs hp ht).trans (exec_live_faults hlive (hlen ▸ hne)),
    rfl, rfl, ?_, hlen⟩
  rw [raisePrecondLen_faultInfo, hop, txnOp_toNat]

/-- Settles O32: a set bit makes the reserved field nonzero, and transcription looks at that field
first. -/
theorem reservedBitsAreRefused : Obligations.ReservedBitsAreRefused := by
  intro W s t rest k hs hp h24 h30 hk
  have hread : readPresented W (.txn32 t) = .error .reserved :=
    transcribe_reserved (txnRsv_ne_zero_of_bit h24 h30 hk)
  have hstep : step s = .refused .reserved := step_rejected hs hp hread
  rw [advance_of_refused hstep]
  exact ⟨hstep, rfl, rfl, rfl⟩

/-- Settles O33: the step is refused as a lane when transcription is, which is when one of the two
lane rules is broken. -/
theorem emptyLanesMustBeZero : Obligations.EmptyLanesMustBeZero := by
  intro W s t rest hs hp hr
  rw [step_eq_refused_lane_iff hs hp, transcribe_eq_lane_iff (txnRsv_eq_zero_iff.mpr hr),
    txnOp_eq_zero_iff, txnOp_eq_one_iff, encodeLaneViolation_eq_true, decodeLaneViolation_eq_true,
    txnLen_toNat, txnB0_toNat, txnB1_toNat]
  have hdata : t.toNat % 2 ^ 16 = 0 ↔ t.toNat / 2 ^ 8 % 256 = 0 ∧ t.toNat % 256 = 0 := by omega
  rw [ne_eq (t.toNat % 2 ^ 16), hdata]
  tauto

/-- Settles O35: an admitted issue is executed, and an operand too wide for the instance is rejected
as a lane. -/
theorem stepRunsTheIssuedTransaction : Obligations.StepRunsTheIssuedTransaction := by
  intro W s rest hs
  refine ⟨fun t i hp ht => step_admitted hs hp ht, fun i hp hw => ?_, fun i hp hw => ?_⟩
  · exact step_admitted hs hp (if_pos hw)
  · exact step_rejected hs hp (if_neg (by rw [hw]; decide))

end Sys2Proof.Encoding
end

section
/-! PROOFS. The two operations (40_codec_ops.md R42 to R48): the bytes a word stands for, which is
what a DECODE delivers and an ENCODE reads back, where each bit of them stands in the word, and the
words of the spec's tables. -/

namespace Sys2Proof.Machine

/-! ### The bytes of a word -/

/-- The bytes a word stands for, the high byte first (40_codec_ops.md R43; 20_memory.md R20). -/
def wordBytes : BusWord → Buffer
  | .w8 b => [b]
  | .w16 w => [highByte w, lowByte w]

@[simp] theorem wordBytes_length (w : BusWord) : (wordBytes w).length = w.len.bytes := by
  cases w <;> rfl

/-- A destination of the word's own length is overwritten whole. -/
theorem writeWord_eq_wordBytes (w : BusWord) {dst : Buffer} (h : dst.length = w.len.bytes) :
    writeWord w dst = wordBytes w := by
  cases w with
  | w8 b => exact writeWord_w8 b h
  | w16 w => exact writeWord_w16 w h

/-- Reading a source of `W` bytes loses nothing: its bytes are the word's. -/
theorem wordBytes_readWord {W : WordLen} {src : Buffer} (h : src.length = W.bytes) :
    wordBytes (readWord W src h) = src := by
  cases W with
  | one =>
    obtain ⟨b, rfl⟩ := List.length_eq_one_iff.mp h
    rw [readWord_one, wordBytes]
  | two =>
    obtain ⟨b, c, rfl⟩ := List.length_eq_two.mp h
    rw [readWord_two, wordBytes, highByte_twoBytes, lowByte_twoBytes]

/-- Reading a word's bytes gives the word. -/
theorem readWord_wordBytes (w : BusWord) :
    readWord w.len (wordBytes w) (wordBytes_length w) = w := by
  cases w with
  | w8 b => exact readWord_one b _
  | w16 w => exact (readWord_two _ _ _).trans (congrArg BusWord.w16 (twoBytes_halves w))

/-! ### The contract on words and their bytes -/

theorem contract_encode_wordBytes (w : BusWord) :
    contract w.len (.encode (wordBytes w)) = some (.word w) := by
  rw [contract_encode (wordBytes_length w), readWord_wordBytes]

theorem contract_decode_wordOperand (W : WordLen) (data : BitVec 16) :
    contract W (.decode data W.bytes) = some (.buffer (wordBytes (wordOperand W data))) := by
  have hdst : (destination W.bytes).length = (wordOperand W data).len.bytes := by
    rw [destination_length, wordOperand_len]
  rw [contract_decode W data (destination_length _), writeWord_eq_wordBytes _ hdst]

theorem contract_decode_rightAligned (w : BusWord) :
    contract w.len (.decode w.rightAligned w.len.bytes) = some (.buffer (wordBytes w)) := by
  rw [contract_decode_wordOperand, wordOperand_rightAligned]

/-! ### The bits of a word -/

/-- Bit `j` of byte `k` of a word is its bit `8*(W-1-k)+j`. -/
theorem wordBytes_bit (w : BusWord) {k j : Nat} (hk : k < w.len.bytes) (hj : j < 8) :
    (wordBytes w)[k]?.map (·.getLsbD j) =
      some (w.rightAligned.getLsbD (8 * (w.len.bytes - 1 - k) + j)) := by
  cases w with
  | w8 b =>
    obtain rfl : k = 0 := Nat.lt_one_iff.mp hk
    simp [wordBytes, BusWord.rightAligned, BusWord.len, WordLen.bytes, show j < 16 by omega]
  | w16 w =>
    obtain rfl | rfl : k = 0 ∨ k = 1 := Nat.le_one_iff_eq_zero_or_eq_one.mp (Nat.le_of_lt_succ hk)
    · simp [wordBytes, BusWord.rightAligned, BusWord.len, WordLen.bytes, highByte, hj]
    · simp [wordBytes, BusWord.rightAligned, BusWord.len, WordLen.bytes, lowByte, hj]

/-- The word operand has the low `8*W` bits of the data field. -/
theorem wordOperand_bit {W : WordLen} (data : BitVec 16) {i : Nat} (hi : i < 8 * W.bytes) :
    (wordOperand W data).rightAligned.getLsbD i = data.getLsbD i := by
  cases W with
  | one =>
    have hi8 : i < 8 := hi
    simp [wordOperand, BusWord.rightAligned, lowByte, hi8, show i < 16 by omega]
  | two => rfl

/-! ### The zero word -/

/-- Each word length has a zero word, and its bytes are zero. -/
theorem exists_zero_word (W : WordLen) :
    ∃ w : BusWord, w.len = W ∧ w.toNat = 0 ∧ w.rightAligned = 0 ∧
      wordBytes w = List.replicate W.bytes 0 := by
  cases W with
  | one => exact ⟨.w8 0, rfl, rfl, rfl, rfl⟩
  | two => exact ⟨.w16 0, rfl, rfl, rfl, rfl⟩

end Sys2Proof.Machine

namespace Sys2Proof

/-! ### Words of the tables -/

theorem sourceLane_of_getElem? {src : Buffer} {i : Nat} {b : Byte} (h : src[i]? = some b) :
    sourceLane src i = b := by
  rw [sourceLane, h, Option.getD_some]

/-- The TXN32 of a transaction of at most two bytes stands for that transaction. -/
theorem transcribe_of_encodeTxn32_eq {W : WordLen} {t : Txn32} {i : Instr}
    (ht : encodeTxn32 i = t) (hw : i.wellFormed W = true) (hlen : i.length ≤ 2) :
    transcribe W t = .ok i := by
  subst ht
  cases i with
  | encode src =>
    obtain ⟨src', hsrc, hlen', htake⟩ :=
      transcribe_encodeTxn32_encode W (hlen.trans_lt (by decide))
    rw [hsrc, eq_of_take_two_eq (hlen'.trans_le hlen) hlen htake]
  | decode data n => exact transcribe_encodeTxn32_decode hw (hlen.trans_lt (by decide))

theorem decodeTableWord_of_transcribe {nbits w : Nat} {i : Instr}
    (h : ∀ W : WordLen, transcribe W (tableWord nbits w) = .ok i) :
    decodeTableWord nbits w = some i := by
  rw [decodeTableWord, h]

end Sys2Proof

namespace Sys2Proof.CodecOps

open Sys2Proof.Machine

/-- Settles O18: both operations deliver a word and its bytes, of which `wordBytes_bit` says where
each bit stands. -/
theorem codecOnlyPlacesBits : Obligations.CodecOnlyPlacesBits := by
  intro W s src data hs hlen
  refine ⟨readWord W src hlen, wordBytes (wordOperand W data), exec_of_contract hs
    (contract_encode hlen), exec_of_contract hs (contract_decode_wordOperand W data),
    fun k j hk hj => ⟨?_, ?_⟩⟩
  · have hbit := wordBytes_bit (readWord W src hlen) (by rwa [readWord_len]) hj
    rwa [wordBytes_readWord, readWord_len] at hbit
  · rw [wordBytes_bit _ (by rwa [wordOperand_len]) hj, wordOperand_len, wordOperand_bit]
    omega

/-- Settles O19: ENCODE delivers the word read from the buffer, whose bytes are the buffer. -/
theorem decodeAfterEncodeIsIdentity : Obligations.DecodeAfterEncodeIsIdentity := by
  intro W s t b hs ht hlen
  refine ⟨readWord W b hlen, exec_of_contract hs (contract_encode hlen), exec_of_contract ht ?_⟩
  have hdec := contract_decode_rightAligned (readWord W b hlen)
  rwa [readWord_len, wordBytes_readWord] at hdec

/-- Settles O20: DECODE delivers the word's bytes, from which ENCODE reads the word. -/
theorem encodeAfterDecodeIsIdentity : Obligations.EncodeAfterDecodeIsIdentity := by
  rintro W s t w hs ht rfl
  exact ⟨wordBytes w, exec_of_contract hs (contract_decode_rightAligned w),
    exec_of_contract ht (contract_encode_wordBytes w)⟩

/-- Settles O21: equal deliveries are equal words, and so equal bytes; every word is read from its
own bytes, which its DECODE delivers; and any other length enters the fault. -/
theorem encodeIsABijection : Obligations.EncodeIsABijection := by
  intro W s hs
  refine ⟨fun b c hb hc h => ?_, ?_, fun i hi => ?_⟩
  · rw [exec_of_contract hs (contract_encode hb), exec_of_contract hs (contract_encode hc)] at h
    have hword : readWord W b hb = readWord W c hc := by simpa [deliver] using h
    rw [← wordBytes_readWord hb, hword, wordBytes_readWord hc]
  · rintro w rfl
    exact ⟨wordBytes w, wordBytes_length w, exec_of_contract hs (contract_encode_wordBytes w),
      exec_of_contract hs (contract_decode_rightAligned w)⟩
  · exact ⟨_, exec_live_faults hs hi, raisePrecondLen_fault .., raisePrecondLen_delivered ..⟩

/-- Settles O1: an admitted word is the TXN32 of the transaction it stands for; the others have a
reserved bit or an empty lane set. -/
theorem tableWordsTranscribe : Obligations.TableWordsTranscribe := by
  have enc (W : WordLen) : transcribe W 0x00020510#32 = .ok (.encode [0x05#8, 0x10#8]) :=
    transcribe_of_encodeTxn32_eq (by decide) rfl (by decide)
  have dec (W : WordLen) : transcribe W 0x80010034#32 = .ok (.decode 0x0034#16 1) :=
    transcribe_of_encodeTxn32_eq (by decide) (by cases W <;> decide) (by decide)
  refine ⟨?_, ?_, ?_, ?_, ?_, ?_, ?_, enc .two, ?_, fun W => ⟨enc W, dec W⟩,
    decodeTableWord_of_transcribe enc, decodeTableWord_of_transcribe dec⟩
  · exact transcribe_of_encodeTxn32_eq (by decide) rfl (by decide)
  · exact transcribe_of_encodeTxn32_eq (by decide) rfl (by decide)
  · exact transcribe_of_encodeTxn32_eq (by decide) rfl (by decide)
  · exact transcribe_of_encodeTxn32_eq (by decide) rfl (by decide)
  · exact transcribe_reserved (by decide)
  · exact (transcribe_eq_lane_iff (by decide)).mpr (.inl (by decide))
  · exact (transcribe_eq_lane_iff (by decide)).mpr (.inr (by decide))
  · exact transcribe_of_encodeTxn32_eq (by decide) rfl (by decide)

/-- Settles O12: the contract's word on the instance's own length, fault entry on any other, and the
fields of the packed word. -/
theorem encodeGivesTheWordOrFaults : Obligations.EncodeGivesTheWordOrFaults := by
  refine ⟨fun s b hs => exec_of_contract hs rfl, fun s b0 b1 hs => exec_of_contract hs rfl,
    rightAligned_toNat, fun W s src hs hne => exec_live_faults hs hne, fun src hlen => ?_⟩
  obtain ⟨ho, hr, hl, h0, h1⟩ := encodeTxn32_encode_fields hlen
  exact ⟨ho, hr, hl, fun b hb => h0.trans (sourceLane_of_getElem? hb),
    fun b hb => h1.trans (sourceLane_of_getElem? hb)⟩

/-- Settles O13: the contract's bytes on the instance's own length, fault entry on any other; the
packed word is admitted, so its low `8*W` bits are its data field. -/
theorem decodeGivesTheBytesOrFaults : Obligations.DecodeGivesTheBytesOrFaults := by
  refine ⟨fun s data hs => exec_of_contract hs rfl, fun s data hs => exec_of_contract hs rfl,
    fun W s data n hs hne => exec_live_faults hs hne, fun w n hn => ?_⟩
  obtain ⟨ho, hr, hl, hdata⟩ := encodeTxn32_decode_fields w.rightAligned hn
  refine ⟨ho, hr, hl, ?_⟩
  have hadm : decodeLaneViolation w.len (encodeTxn32 (.decode w.rightAligned n)) = false := by
    rw [decodeLaneViolation_eq_not_fitsWord, hdata, fitsWord_rightAligned, Bool.not_true]
  rw [← txnData_toNat_of_admitted hadm, hdata, rightAligned_toNat]

/-- Settles O22: the zero buffer is the zero word's bytes. -/
theorem zeroBufferIsZeroWord : Obligations.ZeroBufferIsZeroWord := by
  intro W s hs
  obtain ⟨w, rfl, hzero, hdata, hbytes⟩ := exists_zero_word W
  rw [← hbytes, ← hdata]
  exact ⟨⟨w, exec_of_contract hs (contract_encode_wordBytes w), rfl, hzero⟩,
    exec_of_contract hs (contract_decode_rightAligned w)⟩

end Sys2Proof.CodecOps
end

section
/-! PROOFS. The exceptions (60_exceptions.md R50 to R59): the one fault and the length alone that
raises it, the halted block that is stuck until reset, why a step is refused and where a refused run
stays, and the order of the checks on one issue. -/

namespace Sys2Proof.Machine

/-! ### The length check -/

/-- A live instance ends a transaction with `FAULT = 1` exactly on a length that is not its own. -/
theorem exec_ends_faulted_iff {W : WordLen} {s : State} (hs : Live W s) (i : Instr) :
    (∃ s', exec i s = .next s' ∧ s'.fault = true) ↔ i.length ≠ W.bytes := by
  refine ⟨?_, fun hl => ⟨_, exec_live_faults hs hl, raisePrecondLen_fault ..⟩⟩
  rintro ⟨s', he, hf'⟩
  obtain ⟨r, -, rfl⟩ | ⟨hl, -⟩ := exec_live_next hs he
  · simp [hs.2] at hf'
  · exact hl

/-- Of a transaction of the wrong length a live instance looks at the operation and the length. -/
theorem exec_eq_of_wrong_length {W : WordLen} {s : State} {i j : Instr} (hs : Live W s)
    (hop : opOf i = opOf j) (hlen : i.length = j.length) (hl : i.length ≠ W.bytes) :
    exec i s = exec j s := by
  rw [exec_live_faults hs hl, exec_live_faults hs (hlen ▸ hl), hop, hlen]

/-- On a running instance the step that takes such a transaction is its fault entry. -/
theorem step_of_wrong_length {W : WordLen} {s : State} {p : Presented} {rest : List Event}
    {i : Instr} (hs : Running W s) (hp : s.pending = serially p :: rest)
    (hi : readPresented W p = .ok i) (hl : i.length ≠ W.bytes) :
    step s = .next (raisePrecondLen { s with pending := rest } (opOf i) i.length) := by
  have hlive : Live W { s with pending := rest } := hs.1
  rw [step_admitted hs hp hi, exec_live_faults hlive hl]

/-- An admitted issue faults and delivers nothing, or delivers the contract's result. -/
theorem step_admitted_outcome {W : WordLen} {s : State} {p : Presented} {rest : List Event}
    {i : Instr} (hs : Running W s) (hp : s.pending = serially p :: rest)
    (hi : readPresented W p = .ok i) :
    ∃ s', step s = .next s' ∧
      if i.length ≠ W.bytes then
        s'.fault = true ∧ s'.faultInfo.cause = 1 ∧ s'.delivered = s.delivered
      else s'.fault = false ∧ ∃ r, contract W i = some r ∧ s'.delivered = s.delivered ++ [r] := by
  split_ifs with hl
  · exact ⟨_, step_of_wrong_length hs hp hi hl, rfl, rfl, rfl⟩
  · have hlive : Live W { s with pending := rest } := hs.1
    obtain ⟨r, hr, -⟩ := exec_live_delivers hlive (not_not.mp hl)
    exact ⟨_, step_of_contract hs hp hi hr, hs.1.2, r, hr, rfl⟩

/-! ### The halted block -/

theorem whenRunning_halted {s : State} {W : WordLen} (hW : s.wordLen = W.toField)
    (hf : s.fault = true) (body : WordLen → Host.Outcome State Fault Refusal) :
    whenRunning s body = .fault .halted := by
  simp [whenRunning, halted, wordLen?_eq_some.mpr hW, hf]

/-- Neither meaning executes anything on a halted instance. -/
theorem exec_halted {s : State} {W : WordLen} (hW : s.wordLen = W.toField) (hf : s.fault = true)
    (i : Instr) : exec i s = .fault .halted := by
  cases i with
  | encode src => exact whenRunning_halted hW hf _
  | decode data n => exact whenRunning_halted hW hf _

/-- However many steps are tried, a stuck state stays as it is. -/
theorem advanceMany_of_stuck {s : State} {f : Fault} (h : step s = .fault f) (k : Nat) :
    advanceMany k s = s := by
  have hstay : advance s = s := by rw [advance, h]
  induction k with
  | zero => rfl
  | succ k ih => rw [advanceMany, hstay, ih]

theorem not_final_of_fault {s : State} (hf : s.fault = true) : ¬ Final s := by
  rintro ⟨-, hclear, -⟩
  simp [hf] at hclear

/-- A reset at the head of the list is taken, halted or not. -/
theorem step_reset {s : State} {W : WordLen} {rest : List Event} (hm : s.refusedMark = none)
    (hW : s.wordLen = W.toField) (hp : s.pending = .reset :: rest) :
    step s = .next (resetBlock { s with pending := rest }) := by
  simp [step, fetch, hm, wordLen?_eq_some.mpr hW, hp]

/-- A reset driven from outside is taken at once, and leaves what was issued before it. -/
theorem step_assertReset {s : State} {W : WordLen} (hm : s.refusedMark = none)
    (hW : s.wordLen = W.toField) : step (assertReset s) = .next (resetBlock s) :=
  step_reset (s := assertReset s) hm hW rfl

/-! ### Refusals -/

theorem wordLen?_eq_none_iff_forall_ne {s : State} :
    wordLen? s = none ↔ ∀ W : WordLen, s.wordLen ≠ W.toField := by
  simp only [Option.eq_none_iff_forall_ne_some, ne_eq, wordLen?_eq_some]

theorem build_refused_iff {w : Nat} : build w = .refused .config ↔ wordLenOfBytes w = none := by
  refine ⟨fun h => ?_, build_illegal⟩
  unfold build at h
  split at h
  · cases h
  · assumption

/-- An unmarked step is refused for its configuration, an issue out of turn, or what an issue in its
turn spells; the transaction itself refuses nothing. -/
theorem step_refused_cases {s : State} {r : Refusal} (hm : s.refusedMark = none)
    (h : step s = .refused r) :
    (r = .config ∧ wordLen? s = none) ∨
    (r = .overlap ∧ ∃ a p rest, s.pending = .issue a p :: rest ∧ a ≠ .serial) ∨
    ∃ (W : WordLen) (p : Presented) (rest : List Event) (e : Reject), s.wordLen = W.toField ∧
      s.pending = serially p :: rest ∧ readPresented W p = .error e ∧ r = refusalOf e := by
  unfold step at h
  obtain ⟨q, hq, -⟩ | ⟨-, hcfg, hf⟩ | ⟨-, W, hW, ⟨-, hf⟩ | ⟨rest, -, hf⟩ | ⟨a, p, rest, hp, hf⟩⟩ :=
    fetch_cases s
  · simp [hm] at hq
  · rw [hf] at h
    cases h
    exact .inl ⟨rfl, hcfg⟩
  · rw [hf] at h
    cases h
  · rw [hf] at h
    cases h
  · rw [hf] at h
    obtain ⟨ha, ht⟩ | ⟨-, -, ht⟩ | ⟨rfl, -, e, he, ht⟩ | ⟨-, hclear, i, -, ht⟩ :=
      takeIssue_cases W { s with pending := rest } a p <;> rw [ht] at h
    · cases h
      exact .inr (.inl ⟨rfl, a, p, rest, hp, ha⟩)
    · cases h
    · cases h
      exact .inr (.inr ⟨W, p, rest, e, hW, hp, he, rfl⟩)
    · have hlive : Live W { s with pending := rest } := ⟨hW, hclear⟩
      obtain ⟨s', hexec⟩ := exec_live_exists_next i hlive
      exact absurd (hexec.symm.trans h) (by simp)

/-- After a refused step a run stays where it is, however many steps follow. -/
theorem advanceMany_of_refused {s : State} {r : Refusal} (h : step s = .refused r) (k : Nat) :
    advanceMany (k + 1) s = markRefused s r := by
  have hstay : advance (markRefused s r) = markRefused s r := advance_marked rfl
  rw [advanceMany, advance_of_refused h]
  induction k with
  | zero => rfl
  | succ k ih => rw [advanceMany, hstay, ih]

/-! ### What a TXN32 that is not refused stands for -/

theorem transcribe_eq_reserved_iff {W : WordLen} {t : Txn32} :
    transcribe W t = .error .reserved ↔ txnRsv t ≠ 0 := by
  refine ⟨fun h => ?_, transcribe_reserved⟩
  obtain ⟨hr, -⟩ | ⟨-, -, -, ht⟩ | ⟨-, -, -, ht⟩ | ⟨-, -, -, ht⟩ | ⟨-, -, -, ht⟩ :=
    transcribe_cases W t
  · exact hr
  all_goals rw [ht] at h; cases h

/-- The lane rejection with the operation and the reserved bits read as numbers. -/
theorem transcribe_eq_lane_iff_toNat {W : WordLen} {t : Txn32} (hr : t.toNat / 2 ^ 24 % 128 = 0) :
    transcribe W t = .error .lane ↔
      encodeLaneViolation t = true ∧ t.toNat / 2 ^ 31 = 0 ∨
      decodeLaneViolation W t = true ∧ t.toNat / 2 ^ 31 = 1 := by
  rw [transcribe_eq_lane_iff (txnRsv_eq_zero_iff.mpr hr), txnOp_eq_zero_iff, txnOp_eq_one_iff,
    and_comm, and_comm (b := decodeLaneViolation W t = true)]

/-- Transcription has the two rejections of R37 and R38 and no other. -/
theorem exists_transcribe_ok {W : WordLen} {t : Txn32} (hr : transcribe W t ≠ .error .reserved)
    (hl : transcribe W t ≠ .error .lane) : ∃ i, transcribe W t = .ok i := by
  cases h : transcribe W t with
  | ok i => exact ⟨i, rfl⟩
  | error e =>
    cases e with
    | reserved => exact absurd h hr
    | lane => exact absurd h hl

end Sys2Proof.Machine

namespace Sys2Proof.Exceptions

open Sys2Proof.Machine

/-- Settles O24: the length alone decides between delivery and fault entry, and fault entry records
the operation and the length alone. -/
theorem precondLenExactlyOnAWrongLength : Obligations.PrecondLenExactlyOnAWrongLength := by
  intro W s hs
  refine ⟨fun src => exec_ends_faulted_iff hs (.encode src),
    fun data n => exec_ends_faulted_iff hs (.decode data n), fun src src' hlen hl => ?_,
    fun data data' n hl => ?_⟩
  · exact exec_eq_of_wrong_length hs rfl hlen hl
  · exact exec_eq_of_wrong_length hs rfl rfl hl

/-- Settles O25: the step is the fault entry of the transaction it took. -/
theorem faultEntryWritesTheRecord : Obligations.FaultEntryWritesTheRecord := by
  intro W s txn rest i hs hp hi hl
  exact ⟨_, step_of_wrong_length hs hp hi hl, rfl, rfl, rfl, rfl, rfl⟩

/-- Settles O27: the step and both meanings are stuck, a stuck state stays as it is, and a reset
does not look at the latch. -/
theorem haltedBlockIsStuckUntilReset : Obligations.HaltedBlockIsStuckUntilReset := by
  intro W s txn rest hW hf hm hp
  have hstuck := step_halted hm hW hf hp
  refine ⟨hstuck, exec_halted hW hf, fun k => ?_, _, step_assertReset hm hW, rfl, rfl⟩
  rw [advanceMany_of_stuck hstuck]
  exact ⟨hf, rfl, rfl, hm, not_final_of_fault hf⟩

/-- Settles O30: a refused step writes the mark alone and a marked run stays; the reasons of an
unmarked step are those `step_refused_cases` lists. -/
theorem refusalSetsTheMarkForTheRun : Obligations.RefusalSetsTheMarkForTheRun := by
  refine ⟨fun s r h => ?_, fun w => build_refused_iff.trans wordLenOfBytes_eq_none,
    fun s r hm h => ?_⟩
  · rw [advance_of_refused h]
    refine ⟨by simp, rfl, rfl, rfl, fun k => ?_⟩
    rw [advanceMany_of_refused h]
    simp
  · obtain ⟨rfl, hcfg⟩ | hoverlap | ⟨W, p, rest, e, hW, hp, he, rfl⟩ := step_refused_cases hm h
    · exact .inl ⟨rfl, wordLen?_eq_none_iff_forall_ne.mp hcfg⟩
    · exact .inr (.inl hoverlap)
    · refine .inr (.inr ⟨W, p, rest, hW, hp, ?_⟩)
      cases e with
      | reserved => exact .inl ⟨rfl, he⟩
      | lane => exact .inr ⟨rfl, he⟩

/-- Settles O31: each check is the lemma about the step it stops, and what passes them all is a
transaction of a live instance, which its length decides. -/
theorem checksAreMadeInOrder : Obligations.ChecksAreMadeInOrder := by
  intro s arrival t rest hm hp
  refine ⟨fun hill => step_illegal hm (wordLen?_eq_none_iff_forall_ne.mpr hill), fun W hW => ?_⟩
  have hrsv : transcribe W t = .error .reserved ↔ t.toNat / 2 ^ 24 % 128 ≠ 0 :=
    transcribe_eq_reserved_iff.trans (not_congr txnRsv_eq_zero_iff)
  split_ifs with harr hf hr hl
  · exact step_overlap hm hW hp harr
  all_goals obtain rfl := not_not.mp harr
  · exact step_halted hm hW hf hp
  all_goals have hs : Running W s := ⟨⟨hW, Bool.not_eq_true _ ▸ hf⟩, hm⟩
  · exact step_rejected hs hp (hrsv.mpr hr)
  all_goals have hlane := transcribe_eq_lane_iff_toNat (W := W) (not_not.mp hr)
  · exact (step_eq_refused_lane_iff hs hp).mpr (hlane.mpr hl)
  · obtain ⟨i, hi⟩ := exists_transcribe_ok (mt hrsv.mp hr) (mt hlane.mp hl)
    obtain ⟨s', hout⟩ := step_admitted_outcome hs hp hi
    exact ⟨i, s', hi, hout⟩

/-- Settles O43: a refused step writes the mark alone, and a marked run answers its mark. -/
theorem refusedRunStopsWhereItIs : Obligations.RefusedRunStopsWhereItIs := by
  intro s r h k
  rw [advanceMany_of_refused h]
  exact ⟨rfl, step_marked rfl⟩

/-- Settles O37: the transactions before the faulting one run as they do alone, its own step is
fault entry, and the state that leaves is the halted block of O27, stuck on the issue behind it. -/
theorem faultsArePrecise : Obligations.FaultsArePrecise := by
  intro W txns is rs s t bad next i rest hs hp his hrs hbad hl ht
  have hbefore := Memory.serialRunDeliversInOrder W txns is rs s
    (serially bad :: serially next :: rest) hs hp his hrs
  have hentry : step { s with
      pending := serially bad :: serially next :: rest
      delivered := s.delivered ++ rs } = .next t :=
    ht ▸ step_of_wrong_length (W := W) hs rfl hbad hl
  have hrun : run (txns.length + 1) s = .next t :=
    (run_add hbefore 1).trans (run_succ_next hentry 0)
  obtain ⟨hstuck, -, hstays, t', hreset, hclear, -⟩ := haltedBlockIsStuckUntilReset W t next rest
    (ht ▸ hs.1.1) (ht ▸ rfl) (ht ▸ hs.2) (ht ▸ rfl)
  refine ⟨hrun, fun k => ?_, fun k => ?_, t', hreset, hclear⟩
  · rw [show txns.length + 2 + k = txns.length + 1 + (k + 1) by omega, run_add hrun]
    exact run_succ_fault hstuck k
  · obtain ⟨hf, hinfo, -, hm, hfinal⟩ := hstays k
    exact ⟨hf, hinfo, hm, hfinal⟩

end Sys2Proof.Exceptions
end

section
/-! PROOFS. Reset and what follows it (70_reset_and_hazards.md R63, R64): reset, building and the
reset step leave the same latch and record, and what reset leaves of an unmarked instance is a
running one. -/

namespace Sys2Proof.Machine

/-- Building an instance of a legal word length answers the new instance of that length. -/
theorem build_bytes (W : WordLen) : build W.bytes = .next (State.instantiate W) := by
  cases W with
  | one => exact build_one
  | two => exact build_two

/-- Reset makes a live instance of one with a legal word length, halted or not. -/
theorem live_resetBlock {W : WordLen} {s : State} (hW : s.wordLen = W.toField) :
    Live W (resetBlock s) := ⟨hW, resetBlock_fault s⟩

/-- After the reset step the transaction issued behind the reset is executed, whether or not the
instance was halted. -/
theorem step_after_reset {W : WordLen} {s : State} {p : Presented} {rest : List Event} {i : Instr}
    (hW : s.wordLen = W.toField) (hm : s.refusedMark = none) (hi : readPresented W p = .ok i) :
    step (resetBlock { s with pending := serially p :: rest }) =
      exec i (resetBlock { s with pending := rest }) := by
  have hs : Running W (resetBlock { s with pending := serially p :: rest }) :=
    ⟨live_resetBlock hW, hm⟩
  exact step_admitted hs rfl hi

end Sys2Proof.Machine

namespace Sys2Proof.ResetAndHazards

open Sys2Proof.Machine

/-- Settles O8: `resetBlock`, a new instance and the reset step hold the values of R63, and a halted
instance that takes no reset is idle, so its latch stays set. -/
theorem onlyResetClearsTheLatch : Obligations.OnlyResetClearsTheLatch := by
  refine ⟨fun s => ⟨rfl, rfl, rfl⟩, fun W => ⟨_, build_bytes W, rfl, rfl, rfl⟩,
    fun s rest hm hp ⟨W, hW⟩ => ⟨_, step_reset hm hW hp, rfl, rfl, rfl⟩, fun s s' h hf hf' => ?_⟩
  obtain ⟨-, rfl⟩ | ⟨rest, hp, -⟩ := step_next_of_halted h hf
  · simp [hf] at hf'
  · exact ⟨rest, hp⟩

/-- Settles O9: the reset step leaves a running instance, its next step executes the transaction,
and by O39 that does the same on any two live instances of one word length. -/
theorem firstTransactionAfterReset : Obligations.FirstTransactionAfterReset := by
  intro W s txn rest i hW hm hp hi
  have hexec := step_after_reset (rest := rest) hW hm hi
  refine ⟨_, step_reset hm hW hp, hexec, fun t t' ht het => ?_⟩
  have hlive : Live W (resetBlock { s with pending := rest }) := live_resetBlock hW
  obtain ⟨out, s₂, t₂, hes, het₂, hds, hdt, hfault, hinfo⟩ :=
    StateItems.outputDependsOnOperandsAlone W i _ t hlive ht
  obtain rfl : t₂ = t' := Host.Outcome.next.inj (het₂.symm.trans het)
  exact ⟨s₂, hexec.trans hes, hfault, hinfo, by simp [hds, hdt]⟩

end Sys2Proof.ResetAndHazards
end
